-- ==== Sys2Proof/Word.lean ====
section
/-! DEFINITION. The machine's word types: `spec/00_scope.md` R6 (parameters) and R8 (notation). -/

namespace Sys2Proof

/-- A memory word, and the width of `AC`, `IR`, `MBR`: `WORD_BITS = 16` (R6). -/
abbrev Word := BitVec 16

/-- A word address, and the width of `PC` and `MAR`: `ADDR_BITS = 12` (R6). -/
abbrev Addr := BitVec 12

/-- A character: the width of `InREG`, `OutREG` and of the streams' elements, `IO_BITS = 8` (R6). -/
abbrev Byte := BitVec 8

/-- The instruction selector in the top nibble of a word: `OPCODE_BITS = 4` (R6). -/
abbrev Opcode := BitVec 4

end Sys2Proof
end

