-- ==== Sys2Proof/Syntax.lean ====
section
/-! DEFINITION. The instruction set as syntax: one constructor per row of `spec/opcode_table.json` (`spec/30_encoding.md` R53). -/

namespace Sys2Proof

/-- The 16 rows of the opcode table. Format A and S constructors carry the 12-bit operand field `X` (R51, R54); format N ones
carry nothing, since their low bits are ignored (R55). -/
inductive Instr where
  /-- 0x0 `JnS X` (R120). -/
  | jns (x : Addr)
  /-- 0x1 `Load X` (R100). -/
  | load (x : Addr)
  /-- 0x2 `Store X` (R101). -/
  | store (x : Addr)
  /-- 0x3 `Add X` (R110). -/
  | add (x : Addr)
  /-- 0x4 `Subt X` (R111). -/
  | subt (x : Addr)
  /-- 0x5 `Input` (R130). -/
  | input
  /-- 0x6 `Output` (R131). -/
  | output
  /-- 0x7 `Halt` (R132). -/
  | halt
  /-- 0x8 `Skipcond` (R123). It keeps the whole operand field, as R73 and R64 encode it; only its bits 11..10 select. -/
  | skipcond (x : Addr)
  /-- 0x9 `Jump X` (R121). -/
  | jump (x : Addr)
  /-- 0xA `Clear` (R113). -/
  | clear
  /-- 0xB `AddI X` (R112). -/
  | addi (x : Addr)
  /-- 0xC `JumpI X` (R122). -/
  | jumpi (x : Addr)
  /-- 0xD `LoadI X` (R102). -/
  | loadi (x : Addr)
  /-- 0xE `StoreI X` (R103). -/
  | storei (x : Addr)
  /-- 0xF, the one undefined opcode (R56, R134), the table's row `UNDEFINED_0xF`. It keeps the word's low bits, so that the
  4096 words stay apart as syntax; no effect depends on them. -/
  | undefined0xF (low : Addr)
deriving DecidableEq, Repr

/-- The formats of R51; `undefined` is the table's "-" for opcode 0xF. -/
inductive Format where
  | a
  | s
  | n
  | undefined
deriving DecidableEq, Repr

/-- One row of the opcode map of R53: a word `w` is of the row when `w & mask = pattern`. -/
structure OpcodeRow where
  mnemonic : String
  opcode : Opcode
  format : Format
  /-- Whether the assembler reads an operand token for it (R53 column 4, R63). -/
  takesOperand : Bool
  pattern : Word
  mask : Word
deriving DecidableEq, Repr

end Sys2Proof
end

