-- ==== Sys2Proof/WellFormed.lean ====
section
/-! DEFINITION. Which terms are instructions of the set, and which operands an encoding admits (`spec/30_encoding.md` R52, R56, R73). -/

namespace Sys2Proof

/-- The term is one of the 15 instructions: opcode value 15 selects no instruction (R52, R56). Operand ranges need no check,
since `X` is a 12-bit field. -/
def Instr.isInstruction : Instr → Bool
  | .jns _ => true
  | .load _ => true
  | .store _ => true
  | .add _ => true
  | .subt _ => true
  | .input => true
  | .output => true
  | .halt => true
  | .skipcond _ => true
  | .jump _ => true
  | .clear => true
  | .addi _ => true
  | .jumpi _ => true
  | .loadi _ => true
  | .storei _ => true
  | .undefined0xF _ => false

/-- The operand that `encode(mnemonic, X)` admits (R73): for a row that takes one, a number `0 <= X <= 0xFFF`; for a row that
takes none, no operand. -/
def operandFits (takesOperand : Bool) (x : Option Nat) : Bool :=
  match takesOperand, x with
  | true, some v => decide (v ≤ 0xFFF)
  | false, none => true
  | true, none => false
  | false, some _ => false

end Sys2Proof
end

