-- ==== Sys2Proof/Decode.lean ====
section
/-! DEFINITION. The decoder and the encoder (`spec/30_encoding.md` R50 to R56, R73), and the opcode map of R53 as data. -/

namespace Sys2Proof

/-- `IR[15:12]` (R52). -/
def opcodeField (w : Word) : Opcode := w.extractLsb' 12 4

/-- `X = IR[11:0]` (R54). -/
def operandField (w : Word) : Addr := w.extractLsb' 0 12

/-- `sel = IR[11:10] = X[11:10]` (R54, R123). -/
def selectorField (x : Addr) : BitVec 2 := x.extractLsb' 10 2

/-- The instruction that an opcode value selects (R53); 15 selects none, which is the row `UNDEFINED_0xF` (R52, R56). -/
def instrOf (op : Opcode) (x : Addr) : Instr :=
  match op.toNat with
  | 0 => .jns x
  | 1 => .load x
  | 2 => .store x
  | 3 => .add x
  | 4 => .subt x
  | 5 => .input
  | 6 => .output
  | 7 => .halt
  | 8 => .skipcond x
  | 9 => .jump x
  | 10 => .clear
  | 11 => .addi x
  | 12 => .jumpi x
  | 13 => .loadi x
  | 14 => .storei x
  | _ => .undefined0xF x

/-- "Decode is a total function of the 16-bit word in `IR`" (R52): it reads the opcode field and, where the row has one, the
operand field (R53, R54). -/
def decode (w : Word) : Instr := instrOf (opcodeField w) (operandField w)

/-- Why no instruction can be read from a sequence of words. No word is refused (R52); only its absence is. -/
inductive DecodeReject where
  /-- Raised by `decodeFirst` on an empty sequence. Safe: the engine's fetch always has a word (R30). -/
  | noWord
deriving DecidableEq, Repr

/-- The instruction at the head of a sequence of words, and the rest: every instruction is exactly one word (R50). -/
def decodeFirst : List Word → Except DecodeReject (Instr × List Word)
  | [] => .error .noWord
  | w :: rest => .ok (decode w, rest)

/-- The instruction the decoder reads from the table's bits: one 16-bit word, the bits above `nbits` zero. -/
def decodeTableWord (nbits w : Nat) : Option Instr :=
  match decodeFirst [BitVec.ofNat 16 (w % 2 ^ nbits)] with
  | .ok (i, _) => some i
  | .error _ => none

/-- The opcode index of each row (R53). -/
def Instr.opcode : Instr → Opcode
  | .jns _ => 0x0
  | .load _ => 0x1
  | .store _ => 0x2
  | .add _ => 0x3
  | .subt _ => 0x4
  | .input => 0x5
  | .output => 0x6
  | .halt => 0x7
  | .skipcond _ => 0x8
  | .jump _ => 0x9
  | .clear => 0xA
  | .addi _ => 0xB
  | .jumpi _ => 0xC
  | .loadi _ => 0xD
  | .storei _ => 0xE
  | .undefined0xF _ => 0xF

/-- The low 12 bits the encoder writes: `X`, or zeros in format N (R55, R73). -/
def Instr.field : Instr → Addr
  | .jns x => x
  | .load x => x
  | .store x => x
  | .add x => x
  | .subt x => x
  | .input => 0
  | .output => 0
  | .halt => 0
  | .skipcond x => x
  | .jump x => x
  | .clear => 0
  | .addi x => x
  | .jumpi x => x
  | .loadi x => x
  | .storei x => x
  | .undefined0xF low => low

/-- `(opcode << 12) | X` (R73). -/
def wordOf (op : Opcode) (x : Addr) : Word := (op.setWidth 16 <<< 12) ||| x.setWidth 16

/-- The word of an instruction (R73). -/
def encode (i : Instr) : Word := wordOf i.opcode i.field

/-- The opcode map of R53, the 15 instructions in opcode order. -/
def instructionRows : List OpcodeRow :=
  [ ⟨"JnS", 0x0, .a, true, 0x0000, 0xF000⟩,
    ⟨"Load", 0x1, .a, true, 0x1000, 0xF000⟩,
    ⟨"Store", 0x2, .a, true, 0x2000, 0xF000⟩,
    ⟨"Add", 0x3, .a, true, 0x3000, 0xF000⟩,
    ⟨"Subt", 0x4, .a, true, 0x4000, 0xF000⟩,
    ⟨"Input", 0x5, .n, false, 0x5000, 0xF000⟩,
    ⟨"Output", 0x6, .n, false, 0x6000, 0xF000⟩,
    ⟨"Halt", 0x7, .n, false, 0x7000, 0xF000⟩ ] ++
  [ ⟨"Skipcond", 0x8, .s, true, 0x8000, 0xF000⟩,
    ⟨"Jump", 0x9, .a, true, 0x9000, 0xF000⟩,
    ⟨"Clear", 0xA, .n, false, 0xA000, 0xF000⟩,
    ⟨"AddI", 0xB, .a, true, 0xB000, 0xF000⟩,
    ⟨"JumpI", 0xC, .a, true, 0xC000, 0xF000⟩,
    ⟨"LoadI", 0xD, .a, true, 0xD000, 0xF000⟩,
    ⟨"StoreI", 0xE, .a, true, 0xE000, 0xF000⟩ ]

/-- The sixteenth row: opcode 0xF (R53, R56). It is no mnemonic of the assembler. -/
def undefinedRow : OpcodeRow := ⟨"UNDEFINED_0xF", 0xF, .undefined, false, 0xF000, 0xF000⟩

/-- All 16 rows, which partition the 65536 words. -/
def opcodeTable : List OpcodeRow := instructionRows ++ [undefinedRow]

/-- A word is of a row when `w & mask = pattern` (R53). -/
def OpcodeRow.matchesWord (row : OpcodeRow) (w : Word) : Bool := w &&& row.mask == row.pattern

/-- `encode(mnemonic, X)` of R73, refusing an operand it does not admit. -/
def encodeRow (row : OpcodeRow) (x : Option Nat) : Option Word :=
  if operandFits row.takesOperand x then
    some (wordOf row.opcode (BitVec.ofNat 12 (x.getD 0)))
  else none

/-- The bits of a word that its decoding depends on (R55): only the opcode in format N, the whole word otherwise. For
`Skipcond` the operand field is kept as syntax; that its bits 9..0 have no effect is a fact about its meaning. -/
def significantMask (w : Word) : Word :=
  match (opcodeField w).toNat with
  | 5 => 0xF000
  | 6 => 0xF000
  | 7 => 0xF000
  | 10 => 0xF000
  | _ => 0xFFFF

end Sys2Proof
end

