-- ==== Sys2Proof/Config.lean ====
section
/-! DEFINITION. What is fixed for the machine: the parameters of `spec/00_scope.md` R6 and R7, and the model's named choices. -/

namespace Sys2Proof

/-- `UNDEF_OPCODE_POLICY` (R7, R134, D3): what opcode 0xF does at run time. -/
inductive UndefPolicy where
  /-- `fatal`, the default: the run ends in `STATUS = FAULT`. -/
  | fatal
  /-- `nop`: no effect beyond the fetch. -/
  | nop
deriving DecidableEq, Repr

/-- `IMAGE_BYTE_ORDER` (R7, R31, D18): how an image file is cut into words; invisible inside the machine. -/
inductive ByteOrder where
  | little
  | big
deriving DecidableEq, Repr

namespace Config

/-- `RESET_PC` (R6, R190). -/
def resetPc : Addr := 0x100

/-- `MEM_WORDS`, which is also `MAX_IMAGE_WORDS` (R6). -/
def memWords : Nat := 4096

/-- `SYM_CAPACITY` (R7, D26). -/
def symCapacity : Nat := 4096

/-- What a memory cell that nothing has written reads as. DESIGN CHOICE, unsafe (log 2): the spec leaves the content of the
cells beyond the image open (`MEM_INIT`, D6, U10); zero is one admitted value. -/
def unlistedWord : Word := 0

/-- `IN_EOF_BYTE` (R7, D10, U7): the spec's open parameter. A FREE VALUE: it has no body, so nothing can be proved of it. It is
what `State.reset` holds in its field `inEofByte`. DESIGN CHOICE (log 4). -/
opaque inEofByte : Byte

end Config

end Sys2Proof
end

