-- ==== Sys2Proof/Machine/State.lean ====
section
/-! DEFINITION. The state of the execution engine, its stops, and the state after reset (`spec/10_state.md`,
`spec/60_exceptions.md` R170, R178, R179, `spec/70_reset_and_hazards.md` R190). -/

namespace Sys2Proof.Machine

/-- Memory as plain data (R19, R30): the words that differ from what an unlisted address reads as, with their word addresses,
strictly rising (`Memory.wf`). The unit is the 16-bit word, "the machine's only memory granularity" (R32; log 1). -/
abbrev Memory := List (Nat × Word)

/-- `STATUS` (R22). -/
inductive Status where
  /-- `RUN`: the engine takes steps. -/
  | run
  /-- `HALTED`: a `Halt` was executed; absorbing. -/
  | halted
  /-- `FAULT`: an undefined opcode was met under policy `fatal`; absorbing. -/
  | fault
deriving DecidableEq, Repr

/-- `FAULT_INFO = (ir, at)` (R170): the offending word and its address. -/
structure FaultInfo where
  word : Word
  addr : Addr
deriving DecidableEq, Repr

/-- One `TRACE` record: "the full register file" at the end of a step (R179, D31). -/
structure TraceRecord where
  ac : Word
  ir : Word
  mbr : Word
  pc : Addr
  mar : Addr
  inReg : Byte
  outReg : Byte
deriving DecidableEq, Repr

/-- The execution engine's state (`spec/10_state.md` section 1), the streams and tokens beside it (R20, R21), and the
parameters of the run (R7). -/
structure State where
  /-- The accumulator (R10). -/
  ac : Word
  /-- The program counter (R11). -/
  pc : Addr
  /-- The instruction register (R14). -/
  ir : Word
  /-- The memory address register (R15). -/
  mar : Addr
  /-- The memory buffer register (R16). -/
  mbr : Word
  /-- The input latch (R17). -/
  inReg : Byte
  /-- The output latch (R17). -/
  outReg : Byte
  /-- The run status (R22). -/
  status : Status
  /-- The reason record of a fault (R22, R170). -/
  faultInfo : Option FaultInfo
  /-- The 4096 words of memory (R19). -/
  mem : Memory
  /-- The bytes of the input stream that have arrived and are not yet consumed, next first (R20, R133). -/
  input : List Byte
  /-- The input stream has ended: no byte comes after those of `input` (R133). -/
  inputEnded : Bool
  /-- The bytes emitted so far, oldest first (R20). -/
  output : List Byte
  /-- The step acknowledgements that are available (R81, R178). -/
  stepAcks : Nat
  /-- The trace records emitted so far, oldest first (R179). -/
  trace : List TraceRecord
  /-- `UNDEF_OPCODE_POLICY`, fixed for a run (R7, R134). -/
  undefPolicy : UndefPolicy
  /-- `STEP_MODE`, fixed for a run (R7, R178). -/
  stepMode : Bool
  /-- `TRACE_MODE`, fixed for a run (R7, R179). -/
  traceMode : Bool
  /-- `IN_EOF_BYTE`, fixed for a run (R7, D10). The model's own field for the spec's open parameter: no step writes it, and a
  statement about it holds for every value (log 4). -/
  inEofByte : Byte
deriving DecidableEq, Repr

/-- How a step could stop with a fault. It has no constructor, so no step can: the machine's one exception,
`UndefinedOpcode`, leads to a next state with `STATUS = FAULT` (R85, R175), memory accesses cannot fault (R30), and nothing else
stops the machine (R172). Safe (log 9). -/
inductive Fault
deriving DecidableEq, Repr

/-- How a step could be refused. -/
inductive Refusal where
  /-- Raised by an arm of `exec` whose instruction has no meaning yet; no arm raises it now. Safe: the model would stop where
  the machine goes on. -/
  | notModelled (mnemonic : String)
deriving DecidableEq, Repr

/-- The machine right after reset (R24, R190), with no image loaded. `PC`, `STATUS`, `FAULT_INFO`, the empty output stream and
the three defaults of R7 are the spec's. The zeros of the six registers it leaves unspecified are a DESIGN CHOICE, unsafe
(log 3); memory with nothing listed is log 2; the input stream with nothing delivered yet and not ended is log 7; `inEofByte`
is the free value of log 4. -/
def State.reset : State where
  ac := 0
  pc := Config.resetPc
  ir := 0
  mar := 0
  mbr := 0
  inReg := 0
  outReg := 0
  status := .run
  faultInfo := none
  mem := []
  input := []
  inputEnded := false
  output := []
  stepAcks := 0
  trace := []
  undefPolicy := .fatal
  stepMode := false
  traceMode := false
  inEofByte := Config.inEofByte

end Sys2Proof.Machine
end

