-- ==== Sys2Proof/Machine/Ops.lean ====
section
/-! DEFINITION. The named operations over memory and registers: memory access (`spec/20_memory.md` R30), the fetch phase and the
enabling of a step (`spec/40_step_engine.md` R80, R81), the streams (`spec/44_io_halt.md` R130, R131, R133), taking the one
exception (`spec/60_exceptions.md` R170, R175) and the trace (R179). -/

namespace Sys2Proof.Machine

/-! ### Truncation and extension (R8, R12) -/

/-- `trunc_12(v)`: every write to `PC` and `MAR` keeps the low 12 bits (R12). -/
def trunc12 (v : Word) : Addr := v.setWidth 12

/-- `zext_16` of an address (R120, D13). -/
def zextAddr (a : Addr) : Word := a.setWidth 16

/-- `zext_16` of a byte (R130, D9). -/
def zextByte (b : Byte) : Word := b.setWidth 16

/-- `AC[7:0]` (R131). -/
def lowByte (v : Word) : Byte := v.setWidth 8

/-- `trunc_12(a + 1)`: the address arithmetic of the fetch, `JnS` and `Skipcond`, modulo 4096 (R36). -/
def nextAddr (a : Addr) : Addr := a + 1

/-! ### Memory (R30) -/

/-- The word at an address, by its number. -/
def Memory.readAt : Memory → Nat → Word
  | [], _ => Config.unlistedWord
  | (k, v) :: m, n => if k = n then v else Memory.readAt m n

/-- `MemRead(a, 1)` (R30). -/
def Memory.read (m : Memory) (a : Addr) : Word := Memory.readAt m a.toNat

/-- List nothing at an address. -/
def Memory.eraseAt (m : Memory) (n : Nat) : Memory := m.filter (fun c => c.1 != n)

/-- List a word at an address, in its place among rising addresses. -/
def Memory.insertAt : Memory → Nat → Word → Memory
  | [], n, v => [(n, v)]
  | (k, w) :: m, n, v =>
    if n < k then (n, v) :: (k, w) :: m
    else if n = k then (n, v) :: m
    else (k, w) :: Memory.insertAt m n v

/-- Put a word at an address, by its number, keeping the canonical form: a word equal to what an unlisted address reads as is
not listed. -/
def Memory.writeAt (m : Memory) (n : Nat) (v : Word) : Memory :=
  if v = Config.unlistedWord then Memory.eraseAt m n else Memory.insertAt m n v

/-- `MemWrite(a, 1, v)` (R30). -/
def Memory.write (m : Memory) (a : Addr) (v : Word) : Memory := Memory.writeAt m a.toNat v

/-- The canonical form from an address on: strictly rising addresses below 4096, no word listed that an unlisted address reads
as anyway. -/
def Memory.wfFrom : Nat → Memory → Bool
  | _, [] => true
  | lo, (k, v) :: m =>
    decide (lo ≤ k) && decide (k < Config.memWords) && decide (v ≠ Config.unlistedWord) && Memory.wfFrom (k + 1) m

/-- Memory's canonical form: two memories in it that read alike are equal. -/
def Memory.wf (m : Memory) : Bool := Memory.wfFrom 0 m

/-! ### Register writes -/

def State.setAc (v : Word) (s : State) : State := { s with ac := v }

def State.setPc (a : Addr) (s : State) : State := { s with pc := a }

def State.setMar (a : Addr) (s : State) : State := { s with mar := a }

def State.setMbr (v : Word) (s : State) : State := { s with mbr := v }

def State.setIr (v : Word) (s : State) : State := { s with ir := v }

def State.setInReg (b : Byte) (s : State) : State := { s with inReg := b }

def State.setOutReg (b : Byte) (s : State) : State := { s with outReg := b }

def State.setStatus (st : Status) (s : State) : State := { s with status := st }

/-- `MBR <- MemRead(MAR, 1)` (R89 (a), (b)). -/
def State.readMbr (s : State) : State := s.setMbr (s.mem.read s.mar)

/-- `MemWrite(MAR, 1, MBR)` (R89 (a), (c)). -/
def State.writeMbr (s : State) : State := { s with mem := s.mem.write s.mar s.mbr }

/-! ### The fetch phase (R80) -/

/-- `MAR <- PC; PC <- trunc_12(PC + 1); IR <- MemRead(MAR, 1)`, in this order. -/
def State.fetch (s : State) : State :=
  let s1 := s.setMar s.pc
  let s2 := s1.setPc (nextAddr s1.pc)
  s2.setIr (s2.mem.read s2.mar)

/-! ### The streams (R133) -/

/-- A byte is available or the stream has ended: an `Input` step is not held (R81 (b)). -/
def State.inputReady (s : State) : Bool := !s.input.isEmpty || s.inputEnded

/-- `InTake()` (R8, R130): the next byte, removed from the stream; `IN_EOF_BYTE` once the stream has ended; nothing while no
byte is available and it has not ended. -/
def State.inTake (s : State) : Option (Byte × State) :=
  match s.input with
  | b :: rest => some (b, { s with input := rest })
  | [] => if s.inputEnded then some (s.inEofByte, s) else none

/-- `OutEmit(b)` (R8, R131): append one byte to the output stream. It never blocks (D11). -/
def State.outEmit (b : Byte) (s : State) : State := { s with output := s.output ++ [b] }

/-! ### The enabling of a step (R81) -/

/-- The word is an `Input` instruction: `w[15:12] = 5`. -/
def isInputWord (w : Word) : Bool := opcodeField w == 5

/-- The step gate lets the next step pass (R81 (a), R178). -/
def State.gateOpen (s : State) : Bool := !s.stepMode || decide (0 < s.stepAcks)

/-- A step is enabled (R81): `STATUS = RUN`, the gate is open, and an `Input` about to be fetched has its byte. -/
def State.enabled (s : State) : Bool :=
  decide (s.status = .run) && s.gateOpen && (!isInputWord (s.mem.read s.pc) || s.inputReady)

/-- Consume one `STEP_ACK` when `STEP_MODE` is on (R178). -/
def State.consumeAck (s : State) : State :=
  if s.stepMode then { s with stepAcks := s.stepAcks - 1 } else s

/-! ### Taking the exception (R170, R175) -/

/-- `raise UndefinedOpcode(ir = IR, at = MAR)`: `STATUS <- FAULT; FAULT_INFO <- (IR, MAR)` and nothing else. There is no
handler, no vector and no saved state beyond the record (R175), and no return: `FAULT` is absorbing and only reset leaves it
(R177), so no operation beside this one undoes it. -/
def State.raiseUndefinedOpcode (s : State) : State :=
  { s with status := .fault, faultInfo := some ⟨s.ir, s.mar⟩ }

/-! ### The trace (R179) -/

/-- The register file, as a trace record holds it. -/
def State.registers (s : State) : TraceRecord :=
  ⟨s.ac, s.ir, s.mbr, s.pc, s.mar, s.inReg, s.outReg⟩

/-- Emit one `TRACE` record when `TRACE_MODE` is on. -/
def State.emitTrace (s : State) : State :=
  if s.traceMode then { s with trace := s.trace ++ [s.registers] } else s

/-- What the step adds after an execute phase that answers a next state: the trace record of the completed step. -/
def afterExecute : Host.Outcome State Fault Refusal → Host.Outcome State Fault Refusal
  | .next s => .next s.emitTrace
  | .fault r => .fault r
  | .refused r => .refused r

/-! ### Placing an instruction where the next step fetches it -/

/-- Lift every hold of R81 on the next step: `STATUS = RUN` with no fault record, an acknowledgement where the gate needs
one, and the end of the input stream where the word about to be fetched is an `Input` with no byte to take (log 8). -/
def State.liftHolds (s : State) : State :=
  { s with
    status := .run
    faultInfo := none
    stepAcks := if s.gateOpen then s.stepAcks else 1
    inputEnded := if isInputWord (s.mem.read s.pc) && !s.inputReady then true else s.inputEnded }

/-- Store a word at `PC`, then lift the holds, so that the next step runs it. -/
def State.placeWord (w : Word) (s : State) : State :=
  State.liftHolds { s with mem := s.mem.write s.pc w }

end Sys2Proof.Machine
end

