-- ==== Sys2Proof/Machine/Operands.lean ====
section
/-! DEFINITION. The operand forms: direct and indirect, which are all the addressing modes the machine has
(`spec/20_memory.md` R36, `spec/41_load_store.md`), with the use of `MAR` and `MBR` that R89 fixes. -/

namespace Sys2Proof.Machine

/-- The direct operand address `X = IR[11:0]` (R36). -/
def directAddr (x : Addr) : Addr := x

/-- The indirect operand address `trunc_12(M[X])`: the pointer's high 4 bits are ignored (R36, D14). -/
def indirectAddr (m : Memory) (x : Addr) : Addr := trunc12 (m.read (directAddr x))

/-- `MAR <- a; MBR <- MemRead(MAR, 1)`: one execute-phase read (R89 (a), (b)). -/
def State.loadAt (a : Addr) (s : State) : State := (s.setMar a).readMbr

/-- `MAR <- a; MBR <- v; MemWrite(MAR, 1, MBR)`: one execute-phase write (R89 (a), (c)). -/
def State.storeAt (a : Addr) (v : Word) (s : State) : State := ((s.setMar a).setMbr v).writeMbr

/-- The direct operand word, left in `MBR`. -/
def State.loadDirect (x : Addr) (s : State) : State := s.loadAt (directAddr x)

/-- The indirect operand word, left in `MBR`: the pointer word is read first, then the word its low 12 bits address. -/
def State.loadIndirect (x : Addr) (s : State) : State :=
  let p := s.loadDirect x
  p.loadAt (trunc12 p.mbr)

/-- Store to the direct address. -/
def State.storeDirect (x : Addr) (v : Word) (s : State) : State := s.storeAt (directAddr x) v

/-- Store to the indirect address: the pointer word is read before the write (R103). -/
def State.storeIndirect (x : Addr) (v : Word) (s : State) : State :=
  let p := s.loadDirect x
  p.storeAt (trunc12 p.mbr) v

end Sys2Proof.Machine
end

