-- ==== Sys2Proof/Machine/Arithmetic.lean ====
section
/-! DEFINITION. The execute phases of `Add`, `Subt`, `AddI`, `Clear` (`spec/42_arithmetic.md`). -/

namespace Sys2Proof.Machine

/-- `a +16 b`, modulo 2^16, no trap (R114). -/
def add16 (a b : Word) : Word := a + b

/-- `a -16 b`, modulo 2^16, no trap (R114). -/
def sub16 (a b : Word) : Word := a - b

/-- `Add X` (R110): `MAR <- X; MBR <- M[MAR]; AC <- AC +16 MBR`. -/
def execAdd (x : Addr) (s : State) : Host.Outcome State Fault Refusal :=
  let s1 := s.loadDirect x
  .next (s1.setAc (add16 s1.ac s1.mbr))

/-- `Subt X` (R111): the memory word is the subtrahend. -/
def execSubt (x : Addr) (s : State) : Host.Outcome State Fault Refusal :=
  let s1 := s.loadDirect x
  .next (s1.setAc (sub16 s1.ac s1.mbr))

/-- `AddI X` (R112): as `Add`, on the indirect operand. -/
def execAddI (x : Addr) (s : State) : Host.Outcome State Fault Refusal :=
  let s1 := s.loadIndirect x
  .next (s1.setAc (add16 s1.ac s1.mbr))

/-- `Clear` (R113): `AC <- 0`. -/
def execClear (s : State) : Host.Outcome State Fault Refusal :=
  .next (s.setAc 0)

end Sys2Proof.Machine
end

