-- ==== Sys2Proof/Machine/Flags.lean ====
section
/-! DEFINITION. The machine has no flags and no condition codes (`spec/10_state.md` R13). What stands in their place is the test
that `Skipcond` makes of the accumulator's current value (`spec/43_control_transfer.md` R123). -/

namespace Sys2Proof.Machine

/-- `s(v)`: the two's complement reading of a word (R8, D12). -/
def signedValue (v : Word) : Int := v.toInt

/-- The condition of a selector (R123): 0 is `AC < 0`, 1 is `AC = 0`, 2 is `AC > 0`, all signed; 3 never holds (D4). -/
def skipCondition (sel : BitVec 2) (ac : Word) : Bool :=
  match sel.toNat with
  | 0 => decide (signedValue ac < 0)
  | 1 => decide (ac = 0)
  | 2 => decide (signedValue ac > 0)
  | _ => false

end Sys2Proof.Machine
end

