-- ==== Sys2Proof/Machine/Control.lean ====
section
/-! DEFINITION. The execute phases of `JnS`, `Jump`, `JumpI`, `Skipcond` (`spec/43_control_transfer.md`). `PC` already holds the
address of the following instruction (R80, R87). -/

namespace Sys2Proof.Machine

/-- `JnS X` (R120): `MBR <- zext_16(PC); MAR <- X; M[MAR] <- MBR; PC <- trunc_12(MAR + 1)`. `AC` keeps its value (R88, D8). -/
def execJnS (x : Addr) (s : State) : Host.Outcome State Fault Refusal :=
  let s1 := ((s.setMbr (zextAddr s.pc)).setMar x).writeMbr
  .next (s1.setPc (nextAddr s1.mar))

/-- `Jump X` (R121): `PC <- X`. -/
def execJump (x : Addr) (s : State) : Host.Outcome State Fault Refusal :=
  .next (s.setPc x)

/-- `JumpI X` (R122): `MAR <- X; MBR <- M[MAR]; PC <- trunc_12(MBR)`. -/
def execJumpI (x : Addr) (s : State) : Host.Outcome State Fault Refusal :=
  let s1 := s.loadDirect x
  .next (s1.setPc (trunc12 s1.mbr))

/-- `Skipcond` (R123): if the condition of the selector holds of `AC`, `PC <- trunc_12(PC + 1)`. -/
def execSkipcond (x : Addr) (s : State) : Host.Outcome State Fault Refusal :=
  .next (if skipCondition (selectorField x) s.ac then s.setPc (nextAddr s.pc) else s)

end Sys2Proof.Machine
end

