-- ==== Sys2Proof/Machine/IoHalt.lean ====
section
/-! DEFINITION. The execute phases of `Input`, `Output`, `Halt` and of the undefined opcode 0xF (`spec/44_io_halt.md`). -/

namespace Sys2Proof.Machine

/-- `Input` (R130): `InREG <- InTake(); AC <- zext_16(InREG)`. With no byte available and the stream not ended there is nothing
to take and the state does not change; no step reaches that case, since R81 (b) holds the step before its fetch (log 11). -/
def execInput (s : State) : Host.Outcome State Fault Refusal :=
  match s.inTake with
  | some (b, s1) =>
    let s2 := s1.setInReg b
    .next (s2.setAc (zextByte s2.inReg))
  | none => .next s

/-- `Output` (R131): `OutREG <- AC[7:0]; OutEmit(OutREG)`. -/
def execOutput (s : State) : Host.Outcome State Fault Refusal :=
  let s1 := s.setOutReg (lowByte s.ac)
  .next (s1.outEmit s1.outReg)

/-- `Halt` (R132): `STATUS <- HALTED`. -/
def execHalt (s : State) : Host.Outcome State Fault Refusal :=
  .next (s.setStatus .halted)

/-- Opcode 0xF (R134): under policy `fatal` it raises `UndefinedOpcode`; under `nop` it does nothing. -/
def execUndefined0xF (s : State) : Host.Outcome State Fault Refusal :=
  match s.undefPolicy with
  | .fatal => .next s.raiseUndefinedOpcode
  | .nop => .next s

end Sys2Proof.Machine
end

