-- ==== Sys2Proof/Machine/LoadStore.lean ====
section
/-! DEFINITION. The execute phases of `Load`, `Store`, `LoadI`, `StoreI` (`spec/41_load_store.md`). -/

namespace Sys2Proof.Machine

/-- `Load X` (R100): `MAR <- X; MBR <- M[MAR]; AC <- MBR`. -/
def execLoad (x : Addr) (s : State) : Host.Outcome State Fault Refusal :=
  let s1 := s.loadDirect x
  .next (s1.setAc s1.mbr)

/-- `Store X` (R101): `MAR <- X; MBR <- AC; M[MAR] <- MBR`. -/
def execStore (x : Addr) (s : State) : Host.Outcome State Fault Refusal :=
  .next (s.storeDirect x s.ac)

/-- `LoadI X` (R102): the pointer word, then the word it addresses, then `AC <- MBR`. -/
def execLoadI (x : Addr) (s : State) : Host.Outcome State Fault Refusal :=
  let s1 := s.loadIndirect x
  .next (s1.setAc s1.mbr)

/-- `StoreI X` (R103): the pointer word, then `MBR <- AC; M[MAR] <- MBR`. -/
def execStoreI (x : Addr) (s : State) : Host.Outcome State Fault Refusal :=
  .next (s.storeIndirect x s.ac)

end Sys2Proof.Machine
end

