-- ==== Sys2Proof/Machine/Dispatch.lean ====
section
/-! DEFINITION. The execute phase: one arm per constructor of `Instr` (`spec/40_step_engine.md` R80). -/

namespace Sys2Proof.Machine

def exec (i : Instr) (s : State) : Host.Outcome State Fault Refusal :=
  match i with
  | .jns x => Sys2Proof.Machine.execJnS x s
  | .load x => Sys2Proof.Machine.execLoad x s
  | .store x => Sys2Proof.Machine.execStore x s
  | .add x => Sys2Proof.Machine.execAdd x s
  | .subt x => Sys2Proof.Machine.execSubt x s
  | .input => Sys2Proof.Machine.execInput s
  | .output => Sys2Proof.Machine.execOutput s
  | .halt => Sys2Proof.Machine.execHalt s
  | .skipcond x => Sys2Proof.Machine.execSkipcond x s
  | .jump x => Sys2Proof.Machine.execJump x s
  | .clear => Sys2Proof.Machine.execClear s
  | .addi x => Sys2Proof.Machine.execAddI x s
  | .jumpi x => Sys2Proof.Machine.execJumpI x s
  | .loadi x => Sys2Proof.Machine.execLoadI x s
  | .storei x => Sys2Proof.Machine.execStoreI x s
  | .undefined0xF _ => Sys2Proof.Machine.execUndefined0xF s

end Sys2Proof.Machine
end

