-- ==== Sys2Proof/Machine/Step.lean ====
section
/-! DEFINITION. One step of the engine (`spec/40_step_engine.md` R80, R81, R84): atomic, one whole instruction. -/

namespace Sys2Proof.Machine

/-- One step. Enabled (R81): consume the acknowledgement (R178), fetch, decode, execute (R80), emit the trace record (R179).
Not enabled, because the engine is held or the run is over: no step is taken and the state does not change (R81, R91; log 6). -/
def step (s : State) : Host.Outcome State Fault Refusal :=
  if s.enabled then
    let f := s.consumeAck.fetch
    afterExecute (exec (decode f.ir) f)
  else .next s

/-- `s` with the instruction word `w` at the address in `PC`, and every hold of R81 lifted, so that the next step runs it. In a
state where a step is possible only memory changes (log 8). -/
def State.withFetchWord (s : State) (nbits w : Nat) : State :=
  s.placeWord (BitVec.ofNat 16 (w % 2 ^ nbits))

end Sys2Proof.Machine
end

