-- ==== Sys2Proof/Machine/Access.lean ====
section
/-! DEFINITION. The execute-phase memory accesses of each instruction, in order (`spec/20_memory.md` R34). -/

namespace Sys2Proof.Machine

/-- The addresses an instruction reads after the fetch, in order (R34, column "reads"). -/
def dataReads (i : Instr) (m : Memory) : List Addr :=
  match i with
  | .jns _ => []
  | .load x => [directAddr x]
  | .store _ => []
  | .add x => [directAddr x]
  | .subt x => [directAddr x]
  | .input => []
  | .output => []
  | .halt => []
  | .skipcond _ => []
  | .jump _ => []
  | .clear => []
  | .addi x => [directAddr x, indirectAddr m x]
  | .jumpi x => [directAddr x]
  | .loadi x => [directAddr x, indirectAddr m x]
  | .storei x => [directAddr x]
  | .undefined0xF _ => []

/-- The address an instruction writes, if it writes one (R34, column "writes"). -/
def dataWrite (i : Instr) (m : Memory) : Option Addr :=
  match i with
  | .jns x => some (directAddr x)
  | .load _ => none
  | .store x => some (directAddr x)
  | .add _ => none
  | .subt _ => none
  | .input => none
  | .output => none
  | .halt => none
  | .skipcond _ => none
  | .jump _ => none
  | .clear => none
  | .addi _ => none
  | .jumpi _ => none
  | .loadi _ => none
  | .storei x => some (indirectAddr m x)
  | .undefined0xF _ => none

end Sys2Proof.Machine
end

