-- ==== Sys2Proof/Machine/SymbolTable.lean ====
section
/-! DEFINITION. The symbol-table matcher (`spec/45_symbol_matcher.md` R140 to R148, R155): `INSERT`, `FINALISE`, `LOOKUP` by binary
search. It shares no state with the engine (R43; log 12). -/

namespace Sys2Proof.Machine

/-- A symbol's name: a sequence of bytes (R140). -/
abbrev Name := List Byte

/-- `{ name: string, address: 12-bit unsigned }` (R140). -/
structure Symbol where
  name : Name
  address : Addr
deriving DecidableEq, Repr

/-- The phases of R141 (D25). -/
inductive TablePhase where
  /-- `collecting`: insertions allowed, lookups not. -/
  | collecting
  /-- `final`: sorted; lookups allowed, insertions not. -/
  | final
deriving DecidableEq, Repr

/-- The matcher's state `T[0..n-1]`, `n` and the phase (R141); `n` is the list's length. -/
structure SymbolTable where
  entries : List Symbol
  phase : TablePhase
deriving DecidableEq, Repr

/-- The start of an assembly: `n = 0`, `collecting` (R141). -/
def SymbolTable.empty : SymbolTable where
  entries := []
  phase := .collecting

/-! ### Names (R140, R146) -/

/-- The ASCII white space bytes: tab, line feed, vertical tab, form feed, carriage return, space. DESIGN CHOICE (log 14): the spec
says "whitespace" and lists no bytes. -/
def isSpace (b : Byte) : Bool := (decide (9 ≤ b.toNat) && decide (b.toNat ≤ 13)) || decide (b.toNat = 32)

/-- `,` -/
def commaByte : Byte := 0x2C

/-- `/` -/
def slashByte : Byte := 0x2F

/-- A name is non-empty, without white space, comma or `/`, of at most `NAME_MAX` bytes (R140). -/
def nameOk (nameMax : Nat) (name : Name) : Bool :=
  !name.isEmpty && name.all (fun b => !isSpace b && b != commaByte && b != slashByte) && decide (name.length ≤ nameMax)

/-- The order of R146: by unsigned bytes at the first difference, a proper prefix first; equality is byte for byte. -/
def compareNames : Name → Name → Ordering
  | [], [] => .eq
  | [], _ :: _ => .lt
  | _ :: _, [] => .gt
  | a :: as, b :: bs =>
    if a.toNat < b.toNat then .lt else if b.toNat < a.toNat then .gt else compareNames as bs

/-! ### `INSERT` (R144, R155) -/

/-- Why an insertion is refused; the table does not change. -/
inductive InsertRefusal where
  /-- `INSERT` in phase `final` (R155). -/
  | wrongPhase
  /-- The name breaks R140. -/
  | badName
  /-- A symbol of the same name is already in the table (R144, D27). -/
  | duplicate
  /-- `n = SYM_CAPACITY` (R144, D26). -/
  | full
deriving DecidableEq, Repr

/-- `INSERT(name, address)`: `T[n] <- {name, address}; n <- n + 1` (R144). Which refusal is named when several apply is log 21. -/
def SymbolTable.insert (nameMax : Nat) (t : SymbolTable) (name : Name) (address : Addr) : Except InsertRefusal SymbolTable :=
  if t.phase ≠ .collecting then .error .wrongPhase
  else if !nameOk nameMax name then .error .badName
  else if t.entries.any (fun e => e.name == name) then .error .duplicate
  else if Config.symCapacity ≤ t.entries.length then .error .full
  else .ok { t with entries := t.entries ++ [⟨name, address⟩] }

/-! ### `FINALISE` (R145) -/

/-- Why `FINALISE` or `LOOKUP` is refused. -/
inductive PhaseRefusal where
  /-- `FINALISE` in phase `final`, or `LOOKUP` in phase `collecting` (R155). -/
  | wrongPhase
deriving DecidableEq, Repr

/-- Put a symbol before the first one that is not smaller. -/
def insertSorted (e : Symbol) : List Symbol → List Symbol
  | [] => [e]
  | f :: rest => if compareNames e.name f.name = .gt then f :: insertSorted e rest else e :: f :: rest

/-- The permutation of the table that is increasing by name; it is unique when names are, so the algorithm does not matter (R145). -/
def sortSymbols : List Symbol → List Symbol
  | [] => []
  | e :: rest => insertSorted e (sortSymbols rest)

/-- `FINALISE`: sort the table by name; the phase becomes `final` (R145, R155). -/
def SymbolTable.finalise (t : SymbolTable) : Except PhaseRefusal SymbolTable :=
  match t.phase with
  | .collecting => .ok { entries := sortSymbols t.entries, phase := .final }
  | .final => .error .wrongPhase

/-! ### `LOOKUP` (R147, R148) -/

/-- The contract of R147: the address of the symbol of that name, if there is one. -/
def findSymbol (entries : List Symbol) (name : Name) : Option Addr :=
  (entries.find? (fun e => e.name == name)).map (·.address)

/-- One iteration of the search: `(lo, hi, mid)` (R148). -/
structure Probe where
  lo : Int
  hi : Int
  mid : Int
deriving DecidableEq, Repr

/-- What the search answers, and the iterations it made, in order: one name comparison each. -/
structure SearchResult where
  answer : Option Addr
  probes : List Probe
deriving DecidableEq, Repr

/-- The loop of R148. `lo` and `hi` are signed, as there. The fuel bounds the number of iterations; each one shortens `lo..hi`,
so the table's length is enough (log 24). -/
def searchLoop (entries : List Symbol) (name : Name) : Nat → Int → Int → SearchResult
  | 0, _, _ => ⟨none, []⟩
  | fuel + 1, lo, hi =>
    if lo ≤ hi then
      let mid := lo + (hi - lo) / 2
      match entries[mid.toNat]? with
      | none => ⟨none, []⟩
      | some e =>
        match compareNames name e.name with
        | .eq => ⟨some e.address, [⟨lo, hi, mid⟩]⟩
        | .lt =>
          let r := searchLoop entries name fuel lo (mid - 1)
          ⟨r.answer, ⟨lo, hi, mid⟩ :: r.probes⟩
        | .gt =>
          let r := searchLoop entries name fuel (mid + 1) hi
          ⟨r.answer, ⟨lo, hi, mid⟩ :: r.probes⟩
    else ⟨none, []⟩

/-- The binary search over a whole table: `lo <- 0; hi <- n - 1` (R148). -/
def binarySearch (entries : List Symbol) (name : Name) : SearchResult :=
  searchLoop entries name entries.length 0 (entries.length - 1)

/-- `LOOKUP(name)`: `found(address)` or absent, in phase `final` only (R147, R148, R155). It changes no state. -/
def SymbolTable.lookup (t : SymbolTable) (name : Name) : Except PhaseRefusal (Option Addr) :=
  match t.phase with
  | .final => .ok (binarySearch t.entries name).answer
  | .collecting => .error .wrongPhase

/-! ### The table's invariants (R140, R141) -/

/-- Names are unique within one assembly (R140). -/
abbrev UniqueNames (entries : List Symbol) : Prop := (entries.map (·.name)).Nodup

/-- Strictly increasing in the name order (R141). -/
abbrev SortedByName (entries : List Symbol) : Prop :=
  entries.Pairwise (fun a b => compareNames a.name b.name = .lt)

/-- The matcher's invariant: at most `SYM_CAPACITY` symbols, names unique, and in phase `final` sorted (R140, R141). -/
def SymbolTable.Invariant (t : SymbolTable) : Prop :=
  t.entries.length ≤ Config.symCapacity ∧ UniqueNames t.entries ∧ (t.phase = .final → SortedByName t.entries)

end Sys2Proof.Machine
end

