-- ==== Sys2Proof/Machine/Assembler.lean ====
section
/-! DEFINITION. The assembler as a function from source text to an image or an error (`spec/00_scope.md` R4): the source format
(`spec/30_encoding.md` R59 to R72), pending operands and the resolution pass (`spec/45_symbol_matcher.md` R150 to R153). Toolchain,
not part of the engine (log 12). -/

namespace Sys2Proof.Machine

/-- Source text, a line or a token: bytes of ASCII/UTF-8 (R59). -/
abbrev Text := List Byte

/-- The bytes of an ASCII string. -/
def ascii (s : String) : Text := s.toList.map (fun c => BitVec.ofNat 8 c.toNat)

/-! ### Errors (R69, and the refusals of D22, D23, D27, D28) -/

/-- Why a source text gives no image. The number is the line's, from 1. -/
inductive AsmError where
  /-- R69 (1): a word, or a label (log 17), at a cursor above 0xFFF. -/
  | addressExceeds (line : Nat)
  /-- R69 (2): the `ORG` operand is no hexadecimal literal. -/
  | malformedOrg (line : Nat)
  /-- The `ORG` target lies above 0xFFF (R68; log 15). -/
  | orgOutOfRange (line : Nat)
  /-- R69 (3), R65: the `ORG` target is below the cursor. -/
  | orgBackward (line : Nat)
  /-- R69 (4): "fatal parse error naming the offending line number and text". The text it carries is the instruction text, what is
  left of the line behind its comment and label, with the blank between label and instruction kept. DESIGN CHOICE, safe (log 25):
  the spec does not say whether the text is that or the whole source line. -/
  | unrecognizedMnemonic (line : Nat) (text : Text)
  /-- R69 (5). -/
  | missingOperand (line : Nat)
  /-- Tokens beyond those the form needs (R62, D28). -/
  | extraToken (line : Nat)
  /-- An empty label, or one with white space (R61, D28), or one the matcher refuses by R140. -/
  | badLabel (line : Nat)
  /-- A label defined twice (R144, D27). -/
  | duplicateLabel (line : Nat)
  /-- The symbol table is full (R144, D26). -/
  | tableFull (line : Nat)
  /-- The matcher refused a transaction for its phase (R155). No assembly that starts from `Scan.start` meets it, since the table
  is finalised once, after the scan. -/
  | wrongPhase
  /-- A `Hex` or `Dec` literal that is malformed or out of range (R68, D22). -/
  | badLiteral (line : Nat)
  /-- An operand that is neither a symbol nor a hexadecimal literal at most 0xFFF (R152, D23); `patch` is its word's address. -/
  | badOperand (patch : Addr)
deriving DecidableEq, Repr

/-! ### Literals (R68, D22) -/

/-- The value of a hexadecimal digit `0-9a-fA-F`. -/
def hexDigit (b : Byte) : Option Nat :=
  let n := b.toNat
  if 48 ≤ n ∧ n ≤ 57 then some (n - 48)
  else if 97 ≤ n ∧ n ≤ 102 then some (n - 97 + 10)
  else if 65 ≤ n ∧ n ≤ 70 then some (n - 65 + 10)
  else none

/-- The value of a decimal digit `0-9`. -/
def decDigit (b : Byte) : Option Nat :=
  let n := b.toNat
  if 48 ≤ n ∧ n ≤ 57 then some (n - 48) else none

/-- The digits' value in a base, on top of the value read so far. -/
def digitsValue (base : Nat) (digit : Byte → Option Nat) : Nat → Text → Option Nat
  | acc, [] => some acc
  | acc, b :: rest =>
    match digit b with
    | some d => digitsValue base digit (acc * base + d) rest
    | none => none

/-- One or more digits. -/
def numeral (base : Nat) (digit : Byte → Option Nat) (t : Text) : Option Nat :=
  if t.isEmpty then none else digitsValue base digit 0 t

/-- A hexadecimal literal: digits with an optional `0x` or `0X` (R68). -/
def hexValue (t : Text) : Option Nat :=
  match t with
  | a :: b :: rest => if a = 48 ∧ (b = 120 ∨ b = 88) then numeral 16 hexDigit rest else numeral 16 hexDigit t
  | _ => numeral 16 hexDigit t

/-- A decimal literal: an optional `-` or `+`, then digits (R68). -/
def decValue (t : Text) : Option Int :=
  match t with
  | b :: rest =>
    if b = 45 then (numeral 10 decDigit rest).map (fun n => -(n : Int))
    else if b = 43 then (numeral 10 decDigit rest).map (fun n => (n : Int))
    else (numeral 10 decDigit t).map (fun n => (n : Int))
  | [] => none

/-- The word of a `Hex` directive: a literal in 0..0xFFFF (R67, R68). -/
def hexWord (t : Text) : Option Word :=
  match hexValue t with
  | some n => if n ≤ 0xFFFF then some (BitVec.ofNat 16 n) else none
  | none => none

/-- The word of a `Dec` directive: a literal in -32768..65535, modulo 2^16 (R67, R68). -/
def decWord (t : Text) : Option Word :=
  match decValue t with
  | some n => if -32768 ≤ n ∧ n ≤ 65535 then some (BitVec.ofInt 16 n) else none
  | none => none

/-! ### Lines and tokens (R59 to R62) -/

/-- Put a byte in front of the first of some lines. -/
def consToFirst (b : Byte) : List Text → List Text
  | [] => [[b]]
  | line :: rest => (b :: line) :: rest

/-- The lines of a text, cut at line feeds. -/
def splitLines : Text → List Text
  | [] => [[]]
  | b :: rest => if b = 10 then [] :: splitLines rest else consToFirst b (splitLines rest)

/-- R59: remove the comment, from the first `/`; remove line terminators (the carriage returns at the end, log 14); remove leading
white space. -/
def prepareLine (line : Text) : Text :=
  let noComment := line.takeWhile (· != slashByte)
  let noEnd := (noComment.reverse.dropWhile (· == 13)).reverse
  noEnd.dropWhile isSpace

/-- Cut at white space (R62): the tokens, the current token being collected in reverse. -/
def tokensFrom : Text → Text → List Text
  | cur, [] => if cur.isEmpty then [] else [cur.reverse]
  | cur, b :: rest =>
    if isSpace b then
      if cur.isEmpty then tokensFrom [] rest else cur.reverse :: tokensFrom [] rest
    else tokensFrom (b :: cur) rest

/-- The tokens of an instruction text (R62). -/
def tokens (t : Text) : List Text := tokensFrom [] t

/-- R61: the text before the first comma, if there is one, and the text after it. -/
def splitLabel (line : Text) : Option Text × Text :=
  if line.contains commaByte then
    (some (line.takeWhile (· != commaByte)), (line.dropWhile (· != commaByte)).drop 1)
  else (none, line)

/-! ### The scan (R60, R64 to R67) -/

/-- `{ symbol_or_literal: string, patch_address: 12-bit unsigned }` (R142). -/
structure PendingOperand where
  symbolOrLiteral : Text
  patchAddress : Addr
deriving DecidableEq, Repr

/-- The assembler's state while scanning (`spec/30_encoding.md` section 7): the image, all zero at the start, the cursor, the
highest address written, the symbol table, the pending operands in the order recorded. -/
structure Scan where
  image : Memory
  cur : Nat
  hi : Option Addr
  table : SymbolTable
  pending : List PendingOperand
deriving DecidableEq, Repr

/-- The start of an assembly (R60, R141). -/
def Scan.start : Scan where
  image := []
  cur := 0
  hi := none
  table := SymbolTable.empty
  pending := []

/-- The greater of the highest address so far and another one (R64). -/
def maxAddr (hi : Option Addr) (a : Addr) : Addr :=
  match hi with
  | none => a
  | some h => if h.toNat < a.toNat then a else h

/-- Write the next word: `image[cur] <- w; hi <- max(hi, cur); cur <- cur + 1`, with the check `cur <= 0xFFF` (R64, R67, R69). -/
def Scan.emit (lineNo : Nat) (w : Word) (sc : Scan) : Except AsmError Scan :=
  if sc.cur ≤ 0xFFF then
    let a : Addr := BitVec.ofNat 12 sc.cur
    .ok { sc with image := sc.image.write a w, hi := some (maxAddr sc.hi a), cur := sc.cur + 1 }
  else .error (.addressExceeds lineNo)

/-- Bind a label to the cursor (R61, R144). -/
def Scan.bindLabel (nameMax lineNo : Nat) (label : Text) (sc : Scan) : Except AsmError Scan :=
  if label.isEmpty || label.any isSpace then .error (.badLabel lineNo)
  else if 0xFFF < sc.cur then .error (.addressExceeds lineNo)
  else
    match sc.table.insert nameMax label (BitVec.ofNat 12 sc.cur) with
    | .ok t => .ok { sc with table := t }
    | .error .duplicate => .error (.duplicateLabel lineNo)
    | .error .full => .error (.tableFull lineNo)
    | .error .badName => .error (.badLabel lineNo)
    | .error .wrongPhase => .error .wrongPhase

/-- The row of a mnemonic: case-sensitive exact match (R63). -/
def findRow (mnemonic : Text) : Option OpcodeRow :=
  instructionRows.find? (fun row => ascii row.mnemonic == mnemonic)

/-- An instruction line (R64): store `opcode << 12`; if it takes an operand, record a pending operand with its address (R150). -/
def Scan.instruction (lineNo : Nat) (row : OpcodeRow) (args : List Text) (sc : Scan) : Except AsmError Scan :=
  match sc.emit lineNo (wordOf row.opcode 0) with
  | .error e => .error e
  | .ok sc1 =>
    if row.takesOperand then
      match args with
      | [] => .error (.missingOperand lineNo)
      | [operand] => .ok { sc1 with pending := sc.pending ++ [⟨operand, BitVec.ofNat 12 sc.cur⟩] }
      | _ => .error (.extraToken lineNo)
    else
      match args with
      | [] => .ok sc1
      | _ => .error (.extraToken lineNo)

/-- A data line `Hex` or `Dec` (R67): the literal is resolved at once and never looked up. -/
def Scan.data (lineNo : Nat) (value : Text → Option Word) (args : List Text) (sc : Scan) : Except AsmError Scan :=
  if 0xFFF < sc.cur then .error (.addressExceeds lineNo)
  else
    match args with
    | [] => .error (.missingOperand lineNo)
    | [literal] =>
      match value literal with
      | some w => sc.emit lineNo w
      | none => .error (.badLiteral lineNo)
    | _ => .error (.extraToken lineNo)

/-- `ORG` (R65): set the cursor for the next word; never backward; it writes no word. -/
def Scan.org (lineNo : Nat) (args : List Text) (sc : Scan) : Except AsmError Scan :=
  match args with
  | [] => .error (.missingOperand lineNo)
  | [literal] =>
    match hexValue literal with
    | none => .error (.malformedOrg lineNo)
    | some n =>
      if n < sc.cur then .error (.orgBackward lineNo)
      else if 0xFFF < n then .error (.orgOutOfRange lineNo)
      else .ok { sc with cur := n }
  | _ => .error (.extraToken lineNo)

/-- Whether the scan goes on after a line or has met `END` (R66). -/
inductive ScanNext where
  | more (sc : Scan)
  | done (sc : Scan)
deriving DecidableEq, Repr

/-- The scan goes on, or the error. -/
def goOn : Except AsmError Scan → Except AsmError ScanNext
  | .ok sc => .ok (.more sc)
  | .error e => .error e

/-- The instruction text of a line: a directive or an instruction (R62, R63, R71); anything else is a parse error (R69 (4)),
which names this instruction text and not the whole source line (DESIGN CHOICE, log 25). -/
def Scan.text (lineNo : Nat) (text : Text) (sc : Scan) : Except AsmError ScanNext :=
  match tokens text with
  | [] => .error (.unrecognizedMnemonic lineNo text)
  | m :: args =>
    if m = ascii "ORG" then goOn (sc.org lineNo args)
    else if m = ascii "END" then
      match args with
      | [] => .ok (.done sc)
      | _ => .error (.extraToken lineNo)
    else if m = ascii "Hex" then goOn (sc.data lineNo hexWord args)
    else if m = ascii "Dec" then goOn (sc.data lineNo decWord args)
    else
      match findRow m with
      | some row => goOn (sc.instruction lineNo row args)
      | none => .error (.unrecognizedMnemonic lineNo text)

/-- One source line (R59 to R61): an empty one contributes nothing and does not advance the cursor; a label is bound before the
rest of its line is processed. -/
def Scan.line (nameMax lineNo : Nat) (raw : Text) (sc : Scan) : Except AsmError ScanNext :=
  let prepared := prepareLine raw
  if prepared.isEmpty then .ok (.more sc)
  else
    match splitLabel prepared with
    | (none, text) => sc.text lineNo text
    | (some label, text) =>
      match sc.bindLabel nameMax lineNo label with
      | .error e => .error e
      | .ok sc1 => sc1.text lineNo text

/-- All lines in order, until `END` or the last one (R66). -/
def scanLines (nameMax : Nat) : Nat → List Text → Scan → Except AsmError Scan
  | _, [], sc => .ok sc
  | n, raw :: rest, sc =>
    match sc.line nameMax n raw with
    | .error e => .error e
    | .ok (.done sc1) => .ok sc1
    | .ok (.more sc1) => scanLines nameMax (n + 1) rest sc1

/-! ### The resolution pass (R151, R152) -/

/-- The value of an operand token: a symbol's address, otherwise a hexadecimal literal at most 0xFFF (R72, R152, D23). -/
def operandValue (t : SymbolTable) (token : Text) : Option Addr :=
  match t.lookup token with
  | .ok (some a) => some a
  | .ok none =>
    match hexValue token with
    | some v => if v ≤ 0xFFF then some (BitVec.ofNat 12 v) else none
    | none => none
  | .error _ => none

/-- `image[p] <- image[p] | zext_16(v)` (R152). -/
def patchWord (image : Memory) (p : Addr) (v : Addr) : Memory := image.write p (image.read p ||| zextAddr v)

/-- Patch the pending operands in recording order (R151). -/
def resolvePending (t : SymbolTable) : List PendingOperand → Memory → Except AsmError Memory
  | [], image => .ok image
  | p :: rest, image =>
    match operandValue t p.symbolOrLiteral with
    | some v => resolvePending t rest (patchWord image p.patchAddress v)
    | none => .error (.badOperand p.patchAddress)

/-- The words `image[0..hi]` (R70); none when no word was written (log 16). -/
def imageWords (image : Memory) (hi : Option Addr) : List Word :=
  match hi with
  | none => []
  | some h => (List.range (h.toNat + 1)).map (fun n => image.readAt n)

/-- `FINALISE`, then the resolution of every pending operand, then the output (R70, R151). -/
def Scan.finish (sc : Scan) : Except AsmError (List Word) :=
  match sc.table.finalise with
  | .error _ => .error .wrongPhase
  | .ok t =>
    match resolvePending t sc.pending sc.image with
    | .error e => .error e
    | .ok image => .ok (imageWords image sc.hi)

/-- The assembler (R4): from a source text to the image's words, or an error and no image (R69). -/
def assemble (nameMax : Nat) (source : Text) : Except AsmError (List Word) :=
  match scanLines nameMax 1 (splitLines source) Scan.start with
  | .error e => .error e
  | .ok sc => sc.finish

/-! ### Label-free programs, printed (R71, `spec/95_test_vectors.md` S1) -/

/-- The digit `0-9A-F` of a number below 16. -/
def hexDigitByte (n : Nat) : Byte := if n < 10 then BitVec.ofNat 8 (48 + n) else BitVec.ofNat 8 (55 + n)

/-- An operand as a three-digit hexadecimal literal. -/
def operandText (x : Addr) : Text :=
  [hexDigitByte (x.toNat / 256), hexDigitByte (x.toNat / 16 % 16), hexDigitByte (x.toNat % 16)]

/-- The row of an opcode. -/
def rowOfOpcode (op : Opcode) : Option OpcodeRow := instructionRows.find? (fun row => row.opcode == op)

/-- The source line of an instruction, without its line end: the mnemonic, and the operand where it takes one (R71). Opcode 0xF
has no mnemonic and gives an empty line. -/
def sourceLine (i : Instr) : Text :=
  match rowOfOpcode i.opcode with
  | some row => if row.takesOperand then ascii row.mnemonic ++ [32] ++ operandText i.field else ascii row.mnemonic
  | none => []

/-- The source text of a program with no labels and no `ORG`, one instruction a line. -/
def sourceText (program : List Instr) : Text := program.flatMap (fun i => sourceLine i ++ [10])

end Sys2Proof.Machine
end

