-- ==== Sys2Proof/Machine/Environment.lean ====
section
/-! DEFINITION. What the outside does to the engine: the transactions `LOAD`, `RESET`, `IN` and `STEP_ACK`
(`spec/40_step_engine.md` R90, `spec/70_reset_and_hazards.md` R190 to R192), and the cutting of an image file into words
(`spec/20_memory.md` R31). `OUT`, `TRACE` and `STATUS` are fields of the state. -/

namespace Sys2Proof.Machine

/-! ### Events between steps -/

/-- What the environment may do between two steps (R90, R173). -/
inductive EnvEvent where
  /-- `IN` with a byte: it arrives at the end of the input stream. -/
  | byteIn (b : Byte)
  /-- `IN` with "ended": no byte comes any more. -/
  | inputEnds
  /-- One `STEP_ACK` token becomes available. -/
  | stepAck
deriving DecidableEq, Repr

/-- An event changes the streams and tokens only (R23). No byte follows the end of the stream (R133). -/
def State.applyEvent : EnvEvent → State → State
  | .byteIn b, s => if s.inputEnded then s else { s with input := s.input ++ [b] }
  | .inputEnds, s => { s with inputEnded := true }
  | .stepAck, s => { s with stepAcks := s.stepAcks + 1 }

/-! ### `LOAD` -/

/-- Why an image is refused; no run follows (R171). -/
inductive LoadRefusal where
  /-- More than 4096 words (R192). -/
  | tooLarge
  /-- Fewer words were delivered than declared (R171, R192: "a short read is also fatal"). -/
  | shortRead
deriving DecidableEq, Repr

/-- Place a sequence of words from an address upward (R31). -/
def Memory.writeFrom : Memory → Nat → List Word → Memory
  | m, _, [] => m
  | m, n, w :: ws => Memory.writeFrom (Memory.writeAt m n w) (n + 1) ws

/-- `LOAD(image)` (R192): word `i` of the image at `M[i]`, over whatever the cells held before. `fill` is the spec's open
`MEM_INIT` (D6). -/
def load (fill : Memory) (image : List Word) : Except LoadRefusal Memory :=
  if image.length ≤ Config.memWords then .ok (Memory.writeFrom fill 0 image) else .error .tooLarge

/-- `LOAD` from a reader that declares `n` words and delivers some: too large and short reads are refused (R171, R192; log 18). -/
def loadDeclared (fill : Memory) (n : Nat) (words : List Word) : Except LoadRefusal Memory :=
  if Config.memWords < n then .error .tooLarge
  else if words.length < n then .error .shortRead
  else load fill (words.take n)

/-! ### `RESET` -/

/-- `REG_RESET` (R7, D5): the values of the registers that reset leaves unspecified. -/
structure RegReset where
  ac : Word
  ir : Word
  mar : Addr
  mbr : Word
  inReg : Byte
  outReg : Byte
deriving DecidableEq, Repr

/-- The parameters that are fixed for a run (R7). -/
structure RunParams where
  undefPolicy : UndefPolicy
  stepMode : Bool
  traceMode : Bool
  inEofByte : Byte
deriving DecidableEq, Repr

/-- `RESET` (R190, R24), for every value of what the spec leaves open: the six registers, the parameters, memory as `LOAD` left
it, and what the environment has supplied so far. -/
def resetWith (r : RegReset) (p : RunParams) (m : Memory) (input : List Byte) (inputEnded : Bool) : State where
  ac := r.ac
  pc := Config.resetPc
  ir := r.ir
  mar := r.mar
  mbr := r.mbr
  inReg := r.inReg
  outReg := r.outReg
  status := .run
  faultInfo := none
  mem := m
  input := input
  inputEnded := inputEnded
  output := []
  stepAcks := 0
  trace := []
  undefPolicy := p.undefPolicy
  stepMode := p.stepMode
  traceMode := p.traceMode
  inEofByte := p.inEofByte

/-- A run starts with `LOAD(image)` and then `RESET` (R191); a refused `LOAD` gives no state. -/
def start (r : RegReset) (p : RunParams) (fill : Memory) (image : List Word) (input : List Byte) (inputEnded : Bool) :
    Except LoadRefusal State :=
  match load fill image with
  | .ok m => .ok (resetWith r p m input inputEnded)
  | .error e => .error e

/-! ### The image file's bytes (R31, D18) -/

/-- Why bytes are no image file: an odd number of them. Safe (log 18): the spec does not mention the case (N13). -/
inductive ImageFileRefusal where
  | oddLength
deriving DecidableEq, Repr

/-- The word of two consecutive bytes of the file. -/
def wordOfBytes (order : ByteOrder) (first second : Byte) : Word :=
  match order with
  | .little => second ++ first
  | .big => first ++ second

/-- The two bytes of a word, as the file holds them. -/
def bytesOfWord (order : ByteOrder) (w : Word) : List Byte :=
  match order with
  | .little => [w.extractLsb' 0 8, w.extractLsb' 8 8]
  | .big => [w.extractLsb' 8 8, w.extractLsb' 0 8]

/-- Cut an image file into words: "a flat sequence of 16-bit words ... no header" (R31). -/
def wordsOfFile (order : ByteOrder) : List Byte → Except ImageFileRefusal (List Word)
  | [] => .ok []
  | [_] => .error .oddLength
  | a :: b :: rest =>
    match wordsOfFile order rest with
    | .ok ws => .ok (wordOfBytes order a b :: ws)
    | .error e => .error e

/-- The image file of a sequence of words (R31, R70). -/
def fileOfWords (order : ByteOrder) (ws : List Word) : List Byte := ws.flatMap (bytesOfWord order)

end Sys2Proof.Machine
end

