-- ==== Sys2Proof/Safety.lean ====
section
/-! DEFINITION. The terms in which claims speak of a run: over, held, reachable, safe (`spec/40_step_engine.md` R81, R91,
`spec/60_exceptions.md` R181), and the invariant of the state. -/

namespace Sys2Proof.Machine

/-- A run is over exactly when `STATUS` is `HALTED` or `FAULT` (R91). -/
def State.over (s : State) : Prop := s.status = .halted ∨ s.status = .fault

/-- The engine is held (R81): it runs, and no step is enabled until the environment acts. Not halted and not faulted. -/
def State.held (s : State) : Prop := s.status = .run ∧ s.enabled = false

/-- What a run can lead to, by steps of the engine and events of the environment between them (R84, R90). -/
inductive Reaches (s : State) : State → Prop where
  | here : Reaches s s
  | step {t u : State} : Reaches s t → step t = .next u → Reaches s u
  | event {t : State} (e : EnvEvent) : Reaches s t → Reaches s (t.applyEvent e)

/-- A safe run never faults: "a faulted run is never a successful run" (R134). -/
def State.Safe (s : State) : Prop := ∀ t, Reaches s t → t.status ≠ .fault

/-- What every state of a run satisfies: memory is canonical; the record is there exactly in `FAULT` (R22, R170); and after a
fault or a `Halt`, `IR` holds the word at `MAR` that ended the run, with `PC` just behind it (R14, R91, R132, R175). -/
structure State.Invariant (s : State) : Prop where
  canonical : s.mem.wf = true
  record : s.status = .fault ↔ s.faultInfo.isSome = true
  faulted : ∀ f, s.faultInfo = some f →
    f.word = s.ir ∧ f.addr = s.mar ∧ opcodeField s.ir = 0xF ∧ s.undefPolicy = .fatal ∧
      s.pc = nextAddr s.mar ∧ s.mem.read s.mar = s.ir
  halted : s.status = .halted →
    opcodeField s.ir = 0x7 ∧ s.pc = nextAddr s.mar ∧ s.mem.read s.mar = s.ir

/-- The state with trace mode off and no record emitted: what tells two runs apart that differ in tracing only (R179). -/
def State.untraced (s : State) : State := { s with traceMode := false, trace := [] }

end Sys2Proof.Machine
end

