-- ==== Sys2Proof/Certificates/Slice0/Obligations.lean ====
section
/-! DEFINITION. The statements about the model, for the provers. Each docstring names the rule of `spec/` it formalises. -/

open Sys2Proof Sys2Proof.Machine

/-! ### Encoding -/

/-- Decoding an instruction's word gives back the instruction, with every operand at every value (R52, R54, R73). -/
def Obligations.DecodeEncodeGivesBackTheInstruction : Prop :=
  ∀ i : Instr, decode (encode i) = i

/-- R73: `encode(mnemonic, X)` is `(opcode << 12) | X` with `0 <= X <= 0xFFF` for a mnemonic that takes an operand and
`opcode << 12` for one that takes none; it equals `opcode << 12` with `X` OR-ed into it; decoding it gives back opcode and `X`. -/
def Obligations.MnemonicsEncodeAndDecodeBack : Prop :=
  ∀ row ∈ instructionRows,
    (row.takesOperand = true → ∀ x : Nat,
      (x ≤ 0xFFF → ∃ w, encodeRow row (some x) = some w ∧ w.toNat = row.opcode.toNat * 4096 + x ∧
        w = wordOf row.opcode 0 ||| BitVec.ofNat 16 x ∧
        (decode w).opcode = row.opcode ∧ (decode w).field.toNat = x ∧ (decode w).isInstruction = true) ∧
      (0xFFF < x → encodeRow row (some x) = none)) ∧
    (row.takesOperand = false → ∃ w, encodeRow row none = some w ∧ w.toNat = row.opcode.toNat * 4096 ∧
        (decode w).opcode = row.opcode ∧ (decode w).isInstruction = true)

/-- R53: every word is of exactly one row of the opcode map by mask and match, and it is the row of the decoded instruction. -/
def Obligations.EveryWordIsOfExactlyOneOpcodeRow : Prop :=
  ∀ w : Word, ∃ row ∈ opcodeTable, row.matchesWord w = true ∧ row.opcode = (decode w).opcode ∧
    ∀ row' ∈ opcodeTable, row'.matchesWord w = true → row' = row

/-- R55: re-encoding a decoded word loses the ignored bits of format N and nothing else. That the low bits of `Skipcond` and of
opcode 0xF are kept as syntax is the model's choice (log 10). -/
def Obligations.DecodingDropsOnlyIgnoredBits : Prop :=
  ∀ w : Word, encode (decode w) = w &&& significantMask w

/-- R55: bits 11..0 of an `Input`, `Output`, `Halt` or `Clear` word, and bits 9..0 of a `Skipcond` word, have no effect: words
that agree in the other bits execute alike in every state. -/
def Obligations.IgnoredBitsHaveNoEffect : Prop :=
  ∀ (w w' : Word) (s : State), opcodeField w = opcodeField w' →
    (opcodeField w = 5 ∨ opcodeField w = 6 ∨ opcodeField w = 7 ∨ opcodeField w = 0xA ∨
      (opcodeField w = 8 ∧ w.extractLsb' 10 2 = w'.extractLsb' 10 2)) →
    exec (decode w) s = exec (decode w') s

/-- Sanity: words written out in the spec decode to the instructions the spec names (`spec/95_test_vectors.md` S1, V2, V21, V23,
V28, V33; R55; R134). -/
def Obligations.WordsOfTheSpecDecodeAsNamed : Prop :=
  decode 0x1103#16 = .load 0x103 ∧ decode 0xEFFF#16 = .storei 0xFFF ∧ decode 0x7ABC#16 = .halt ∧
  decode 0x87FF#16 = .skipcond 0x7FF ∧ decode 0x0000#16 = .jns 0x000 ∧ decode 0xB200#16 = .addi 0x200 ∧
  decode 0x9100#16 = .jump 0x100 ∧ decode 0xC200#16 = .jumpi 0x200 ∧ decode 0x5FFF#16 = .input ∧
  decode 0xF000#16 = .undefined0xF 0x000 ∧
  decodeTableWord 16 0x2106 = some (.store 0x106)

/-! ### The step engine -/

/-- R80, R178: an enabled step consumes its acknowledgement, fetches (`MAR` takes the old `PC`, `PC` is incremented modulo 4096,
`IR` takes the word at the old `PC`), executes the decoded instruction in that state, and records the trace. -/
def Obligations.StepRunsTheDecodedInstruction : Prop :=
  ∀ (s : State) (i : Instr), s.enabled = true → decode (s.mem.read s.pc) = i →
    step s = afterExecute (exec i { s with
      mar := s.pc, pc := s.pc + 1, ir := s.mem.read s.pc,
      stepAcks := if s.stepMode then s.stepAcks - 1 else s.stepAcks })

/-- R81: a step is enabled exactly when `STATUS = RUN`, a `STEP_ACK` is available if `STEP_MODE` is on, and, if the word at
`M[PC]` has opcode 5, a byte is available or the stream has ended; otherwise the state does not change. That such a step answers the unchanged state is the model's choice (log 6). -/
def Obligations.StepIsHeldExactlyOutsideItsConditions : Prop :=
  ∀ s : State,
    (s.enabled = true ↔ s.status = .run ∧ (s.stepMode = true → 0 < s.stepAcks) ∧
      ((s.mem.read s.pc).extractLsb' 12 4 = 5 → s.input ≠ [] ∨ s.inputEnded = true)) ∧
    (s.enabled = false → step s = .next s)

/-- No step faults or is refused: an enabled step answers a next state (R30, R82, R85, R172). A step that is not enabled, held or
after the end of the run, is no step of the spec (R81, R91); that it answers a next state too is the model's choice (log 6). -/
def Obligations.EveryStepAnswersANextState : Prop :=
  ∀ s : State, ∃ t, step s = .next t

/-- R85: an enabled step ends in `HALTED` exactly for opcode 7, in `FAULT` with `FAULT_INFO` set exactly for opcode 0xF under
policy `fatal`, and in `RUN` otherwise; `IR` holds the fetched word in all cases, and in the first two `MAR` and `PC` have their
post-fetch values. -/
def Obligations.EnabledStepEndsInRunHaltedOrFault : Prop :=
  ∀ s : State, s.enabled = true → ∃ t, step s = .next t ∧ t.ir = s.mem.read s.pc ∧
    (opcodeField (s.mem.read s.pc) = 7 →
      t.status = .halted ∧ t.faultInfo = s.faultInfo ∧ t.mar = s.pc ∧ t.pc = s.pc + 1) ∧
    (opcodeField (s.mem.read s.pc) = 0xF ∧ s.undefPolicy = .fatal →
      t.status = .fault ∧ t.faultInfo = some ⟨s.mem.read s.pc, s.pc⟩ ∧ t.mar = s.pc ∧ t.pc = s.pc + 1) ∧
    (opcodeField (s.mem.read s.pc) ≠ 7 → (opcodeField (s.mem.read s.pc) = 0xF → s.undefPolicy = .nop) →
      t.status = .run ∧ t.faultInfo = s.faultInfo)

/-- R22, R91: once the run is over, no number of steps and no event of the environment followed by steps changes anything the
engine holds. That a step then answers the unchanged state is the model's choice (log 6). -/
def Obligations.HaltedAndFaultAreAbsorbing : Prop :=
  ∀ s : State, s.over → (∀ k, Host.Core.run Sys2Proof.core k s = .next s) ∧
    ∀ (k : Nat) (e : EnvEvent), Host.Core.run Sys2Proof.core k (s.applyEvent e) = .next (s.applyEvent e)

/-- R170, R175: the machine raises its one exception for a fetched word in 0xF000..0xFFFF under policy `fatal` and for nothing
else; the fetch phase has completed, `FAULT_INFO` holds `IR` and `MAR`, and nothing else has changed. -/
def Obligations.UndefinedOpcodeIsTheOnlyException : Prop :=
  ∀ s : State, s.enabled = true →
    ((∃ t, step s = .next t ∧ t.status = .fault) ↔ s.undefPolicy = .fatal ∧ 0xF000 ≤ (s.mem.read s.pc).toNat) ∧
    (∀ t, step s = .next t → t.status = .fault →
      t = State.emitTrace { s.consumeAck with
        mar := s.pc, pc := s.pc + 1, ir := s.mem.read s.pc, status := .fault,
        faultInfo := some ⟨s.mem.read s.pc, s.pc⟩ })

/-- R10, R14, R17, R88: a step changes `AC` only in `Load`, `Add`, `Subt`, `Input`, `Clear`, `AddI`, `LoadI`; `InREG` and the input
stream only in `Input`; `OutREG` and the output stream only in `Output`; and `IR` always takes the fetched word. -/
def Obligations.EachRegisterHasItsListedWriters : Prop :=
  ∀ s t : State, s.enabled = true → step s = .next t →
    (opcodeField (s.mem.read s.pc) ∉ [0x1, 0x3, 0x4, 0x5, 0xA, 0xB, 0xD] → t.ac = s.ac) ∧
    (opcodeField (s.mem.read s.pc) ≠ 0x5 → t.inReg = s.inReg ∧ t.input = s.input) ∧
    (opcodeField (s.mem.read s.pc) ≠ 0x6 → t.outReg = s.outReg ∧ t.output = s.output) ∧
    t.ir = s.mem.read s.pc ∧ t.inputEnded = s.inputEnded

/-- R11: every instruction but `JnS`, `Skipcond`, `Jump`, `JumpI` leaves `PC` one word further, modulo 4096; `Skipcond` one or two
words further. -/
def Obligations.PcAdvancesByOneOutsideControlTransfer : Prop :=
  ∀ s t : State, s.enabled = true → step s = .next t →
    (opcodeField (s.mem.read s.pc) ∉ [0x0, 0x8, 0x9, 0xC] → t.pc.toNat = (s.pc.toNat + 1) % 4096) ∧
    (opcodeField (s.mem.read s.pc) = 0x8 →
      t.pc.toNat = (s.pc.toNat + 1) % 4096 ∨ t.pc.toNat = (s.pc.toNat + 2) % 4096)

/-- R34, R88: the execute phase changes at most the one word of memory that R34's table lists for the instruction, and nothing in
an instruction for which it lists none. -/
def Obligations.MemoryChangesOnlyWhereTheTableSays : Prop :=
  ∀ (i : Instr) (s t : State), exec i s = .next t →
    (∀ a : Addr, dataWrite i s.mem ≠ some a → t.mem.read a = s.mem.read a) ∧
    (dataWrite i s.mem = none → t.mem = s.mem)

/-- R34: what an execute phase does outside memory depends on memory only through the words that R34's table lists as read. -/
def Obligations.EffectsDependOnlyOnTheListedReads : Prop :=
  ∀ (i : Instr) (s : State) (m : Memory), (∀ a ∈ dataReads i s.mem, m.read a = s.mem.read a) →
    ∀ t, exec i s = .next t → ∃ t', exec i { s with mem := m } = .next t' ∧
      { t' with mem := t.mem } = t ∧ dataWrite i m = dataWrite i s.mem

/-- R89: the values of `MAR` and `MBR` after the execute phase, instruction by instruction. -/
def Obligations.MarAndMbrEndAsTheTableSays : Prop :=
  ∀ (i : Instr) (s t : State), exec i s = .next t →
    match i with
    | .load x => t.mar = x ∧ t.mbr = s.mem.read x
    | .add x => t.mar = x ∧ t.mbr = s.mem.read x
    | .subt x => t.mar = x ∧ t.mbr = s.mem.read x
    | .store x => t.mar = x ∧ t.mbr = s.ac
    | .jns x => t.mar = x ∧ t.mbr = s.pc.setWidth 16
    | .jumpi x => t.mar = x ∧ t.mbr = s.mem.read x
    | .loadi x => t.mar = (s.mem.read x).setWidth 12 ∧ t.mbr = s.mem.read ((s.mem.read x).setWidth 12)
    | .addi x => t.mar = (s.mem.read x).setWidth 12 ∧ t.mbr = s.mem.read ((s.mem.read x).setWidth 12)
    | .storei x => t.mar = (s.mem.read x).setWidth 12 ∧ t.mbr = s.ac
    | _ => t.mar = s.mar ∧ t.mbr = s.mbr

/-- R15, R16: no instruction's effect on `AC`, `PC`, memory, the latches, the streams, `STATUS` or `FAULT_INFO` depends on the
values that `MAR`, `MBR` (and `IR`) held before the step. The old `MBR` does stay in `MBR` after an instruction without a memory
access, and so in its trace record (R89 (d), R179). -/
def Obligations.ListedEffectsIgnoreOldScratchRegisters : Prop :=
  ∀ (s t : State) (mar : Addr) (mbr ir : Word), step s = .next t →
    ∃ t', step { s with mar := mar, mbr := mbr, ir := ir } = .next t' ∧
      t'.ac = t.ac ∧ t'.pc = t.pc ∧ t'.mem = t.mem ∧ t'.inReg = t.inReg ∧ t'.outReg = t.outReg ∧
      t'.input = t.input ∧ t'.output = t.output ∧ t'.status = t.status ∧ t'.faultInfo = t.faultInfo ∧
      (s.enabled = true → t'.ir = t.ir ∧ t'.mar = t.mar)

/-- R179: trace mode has no effect on execution: the run with tracing off passes through the same states but for the trace. -/
def Obligations.TracingHasNoEffectOnExecution : Prop :=
  ∀ (k : Nat) (s t : State), Host.Core.run Sys2Proof.core k s = .next t →
    Host.Core.run Sys2Proof.core k s.untraced = .next t.untraced

/-- R179: in trace mode every completed step, the halting or faulting one included, emits one record of the end-of-step register
file; with trace mode off, and when no step is taken, none is emitted. -/
def Obligations.EachCompletedStepEmitsOneTraceRecord : Prop :=
  ∀ s t : State, step s = .next t →
    t.trace = if s.enabled && s.traceMode then
      s.trace ++ [⟨t.ac, t.ir, t.mbr, t.pc, t.mar, t.inReg, t.outReg⟩] else s.trace

/-- R178: step mode changes when a step happens, not what it does: with a token it does what it does with step mode off, and
consumes the token; without one the engine is held. That tokens are a counter is the model's choice (log 20). -/
def Obligations.StepModeOnlyGatesTheStep : Prop :=
  ∀ s : State, s.enabled = true → s.stepMode = false →
    (∀ (n : Nat) (t : State), step s = .next t →
      step { s with stepMode := true, stepAcks := n + 1 } = .next { t with stepMode := true, stepAcks := n }) ∧
    State.held { s with stepMode := true, stepAcks := 0 }

/-- R173: when a byte, the end of the input or an acknowledgement arrives affects only when a step becomes enabled: around an
enabled step, an event before it and the same event after it give the same state. The equality of the two states rests on the
model's choice that tokens are an unbounded counter and that a byte after the end of the input is ignored (log 20). -/
def Obligations.EventsCommuteWithEnabledSteps : Prop :=
  ∀ (e : EnvEvent) (s t : State), s.enabled = true → step s = .next t →
    (s.applyEvent e).enabled = true ∧ step (s.applyEvent e) = .next (t.applyEvent e)

/-- R7, R23: between steps the environment changes no register, no memory and no status, it only extends the streams and tokens;
and the parameters of a run stay what they were through all its steps and events. One `IN_EOF_BYTE` for a run is the model's choice (log 4), and so is
that a byte after the end is ignored (log 20). -/
def Obligations.EventsTouchOnlyStreamsAndParametersAreFixed : Prop :=
  (∀ (e : EnvEvent) (s : State),
    { s.applyEvent e with input := s.input, inputEnded := s.inputEnded, stepAcks := s.stepAcks } = s ∧
    s.input <+: (s.applyEvent e).input ∧ s.stepAcks ≤ (s.applyEvent e).stepAcks ∧
    (s.inputEnded = true → (s.applyEvent e).inputEnded = true ∧ (s.applyEvent e).input = s.input)) ∧
  ∀ s t : State, Reaches s t →
    t.undefPolicy = s.undefPolicy ∧ t.stepMode = s.stepMode ∧ t.traceMode = s.traceMode ∧ t.inEofByte = s.inEofByte

/-! ### Memory -/

/-- R30: a read after a write gives the written word at the written address and the earlier word everywhere else. -/
def Obligations.ReadAfterWriteChangesOneWord : Prop :=
  ∀ (m : Memory) (a b : Addr) (v : Word), (m.write a v).read b = if b = a then v else m.read b

/-- The model's canonical form (log 1): a write keeps it, and two memories in it that read alike are equal. -/
def Obligations.CanonicalMemoryIsKeptAndUnique : Prop :=
  (∀ (m : Memory) (a : Addr) (v : Word), m.wf = true → (m.write a v).wf = true) ∧
  ∀ m m' : Memory, m.wf = true → m'.wf = true → (∀ a : Addr, m.read a = m'.read a) → m = m'

/-- R41: a store, by `Store`, `StoreI` or `JnS`, is seen by the fetch of the very next step, with no fence or delay: that step
fetches the stored word where `PC` is the address stored to, and the word memory held before elsewhere. The storing step's own
`IR` is the word that was fetched, also where it stores to its own address. What is stored and where is R101, R103, R120 and R34;
that `JnS` keeps `AC` and stores the zero-extended return address and that `StoreI` uses the pointer's low 12 bits are the spec's
own decisions D8, D13, D14 (log 13). -/
def Obligations.AStoreIsSeenByTheNextFetch : Prop :=
  ∀ (i : Instr) (a : Addr) (s : State), s.enabled = true → decode (s.mem.read s.pc) = i → dataWrite i s.mem = some a →
    ∃ (t : State) (v : Word), step s = .next t ∧ t.ir = s.mem.read s.pc ∧ t.ac = s.ac ∧
      ((i = .jns a ∧ v = (s.pc + 1).setWidth 16 ∧ t.pc = a + 1) ∨
        ((i = .store a ∨ ∃ x : Addr, i = .storei x ∧ a = (s.mem.read x).setWidth 12) ∧ v = s.ac ∧ t.pc = s.pc + 1)) ∧
      (∀ b : Addr, t.mem.read b = if b = a then v else s.mem.read b) ∧
      ∀ u, t.enabled = true → step t = .next u → u.ir = if t.pc = a then v else s.mem.read t.pc

/-! ### The invariant -/

/-- The invariant of the state is kept by every step and by every event: memory stays canonical, `FAULT_INFO` is there exactly in
`FAULT`, and after a fault or a `Halt` `IR`, `MAR` and `PC` identify the word that ended the run (R14, R22, R91, R170). -/
def Obligations.StepsAndEventsKeepTheInvariant : Prop :=
  ∀ s : State, s.Invariant → (∀ t, step s = .next t → t.Invariant) ∧ ∀ e : EnvEvent, (s.applyEvent e).Invariant

/-- The invariant holds after reset, for every value of what reset leaves open and every canonical memory (R24, R190). -/
def Obligations.ResetMeetsTheInvariant : Prop :=
  State.reset.Invariant ∧
  ∀ (r : RegReset) (p : RunParams) (m : Memory) (input : List Byte) (ended : Bool),
    m.wf = true → (resetWith r p m input ended).Invariant

/-- A run that starts in a state with the invariant and policy `nop` never faults (R134, R170). -/
def Obligations.RunsUnderPolicyNopAreSafe : Prop :=
  ∀ s : State, s.undefPolicy = .nop → s.status ≠ .fault → s.Safe

/-! ### The instructions

The values of `MAR` and `MBR` are the spec's own decision D7, a pointer's low 12 bits D14, selector 3 D4, the zero extensions
D9 and D13, `AC` kept by `JnS` D8 (log 13). -/

/-- R100, R102: `Load X` and `LoadI X`: their words, and all they change: `MAR`, `MBR` and `AC`. -/
def Obligations.LoadsFillTheAccumulator : Prop :=
  ∀ x : Addr,
    decode (0x1000#16 ||| x.setWidth 16) = .load x ∧ decode (0xD000#16 ||| x.setWidth 16) = .loadi x ∧
    ∀ s : State,
      exec (.load x) s = .next { s with mar := x, mbr := s.mem.read x, ac := s.mem.read x } ∧
      ∀ p : Addr, p = (s.mem.read x).setWidth 12 →
        exec (.loadi x) s = .next { s with mar := p, mbr := s.mem.read p, ac := s.mem.read p }

/-- R101, R103: `Store X` and `StoreI X`: their words, and all they change: `MAR`, `MBR` and the one word of memory at the direct
address, or at the low 12 bits of the pointer as it was before the write. Every other word reads as before. -/
def Obligations.StoresWriteTheAccumulatorToOneWord : Prop :=
  ∀ x : Addr,
    decode (0x2000#16 ||| x.setWidth 16) = .store x ∧ decode (0xE000#16 ||| x.setWidth 16) = .storei x ∧
    ∀ s : State,
      (∃ t, exec (.store x) s = .next t ∧ t = { s with mar := x, mbr := s.ac, mem := t.mem } ∧
        ∀ a : Addr, t.mem.read a = if a = directAddr x then s.ac else s.mem.read a) ∧
      (∃ t, exec (.storei x) s = .next t ∧
        t = { s with mar := (s.mem.read x).setWidth 12, mbr := s.ac, mem := t.mem } ∧
        ∀ a : Addr, t.mem.read a = if a = indirectAddr s.mem x then s.ac else s.mem.read a)

/-- R110, R111, R112: `Add X`, `Subt X`, `AddI X`: their words, and all they change: `MAR`, `MBR`, and `AC`, modulo 2^16. -/
def Obligations.AdditionsAndSubtractionUpdateTheAccumulator : Prop :=
  ∀ x : Addr,
    decode (0x3000#16 ||| x.setWidth 16) = .add x ∧ decode (0x4000#16 ||| x.setWidth 16) = .subt x ∧
    decode (0xB000#16 ||| x.setWidth 16) = .addi x ∧
    ∀ s : State,
      exec (.add x) s = .next { s with
        mar := x, mbr := s.mem.read x, ac := BitVec.ofNat 16 (s.ac.toNat + (s.mem.read x).toNat) } ∧
      exec (.subt x) s = .next { s with
        mar := x, mbr := s.mem.read x, ac := BitVec.ofNat 16 (s.ac.toNat + 65536 - (s.mem.read x).toNat) } ∧
      ∀ p : Addr, p = (s.mem.read x).setWidth 12 →
        exec (.addi x) s = .next { s with
          mar := p, mbr := s.mem.read p, ac := BitVec.ofNat 16 (s.ac.toNat + (s.mem.read p).toNat) }

/-- R113: `Clear`, for every value of its ignored bits: `AC <- 0` and nothing else. -/
def Obligations.ClearZeroesTheAccumulator : Prop :=
  (∀ low : Addr, decode (0xA000#16 ||| low.setWidth 16) = .clear) ∧
  ∀ s : State, exec .clear s = .next { s with ac := 0 }

/-- R114: 16-bit addition and subtraction wrap modulo 2^16; read as signed numbers the result is exact when it fits, and off by
65536 when it does not. -/
def Obligations.ArithmeticWrapsModulo65536 : Prop :=
  ∀ a b : Word,
    (add16 a b).toNat = (a.toNat + b.toNat) % 65536 ∧
    (sub16 a b).toNat = (a.toNat + 65536 - b.toNat) % 65536 ∧
    (-32768 ≤ a.toInt + b.toInt ∧ a.toInt + b.toInt ≤ 32767 → signedValue (add16 a b) = a.toInt + b.toInt) ∧
    (a.toInt + b.toInt > 32767 → signedValue (add16 a b) = a.toInt + b.toInt - 65536) ∧
    (a.toInt + b.toInt < -32768 → signedValue (add16 a b) = a.toInt + b.toInt + 65536) ∧
    (-32768 ≤ a.toInt - b.toInt ∧ a.toInt - b.toInt ≤ 32767 → signedValue (sub16 a b) = a.toInt - b.toInt) ∧
    (a.toInt - b.toInt > 32767 → signedValue (sub16 a b) = a.toInt - b.toInt - 65536) ∧
    (a.toInt - b.toInt < -32768 → signedValue (sub16 a b) = a.toInt - b.toInt + 65536)

/-- R120: `JnS X`: the return address, zero-extended, goes to the word at `X` and to `MBR`; `PC` becomes `X + 1` modulo 4096; `AC`
and everything else keep their values. -/
def Obligations.JnSStoresTheReturnAddressAndEnters : Prop :=
  ∀ x : Addr, decode (0x0000#16 ||| x.setWidth 16) = .jns x ∧
    ∀ s : State, ∃ t, exec (.jns x) s = .next t ∧
      t = { s with mar := x, mbr := s.pc.setWidth 16, pc := BitVec.ofNat 12 (x.toNat + 1), mem := t.mem } ∧
      ∀ a : Addr, t.mem.read a = if a = directAddr x then s.pc.setWidth 16 else s.mem.read a

/-- R121, R122: `Jump X` and `JumpI X`: their words, and all they change: `PC`, and in `JumpI` also `MAR` and `MBR`. -/
def Obligations.JumpsSetTheProgramCounter : Prop :=
  ∀ x : Addr,
    decode (0x9000#16 ||| x.setWidth 16) = .jump x ∧ decode (0xC000#16 ||| x.setWidth 16) = .jumpi x ∧
    ∀ s : State,
      exec (.jump x) s = .next { s with pc := x } ∧
      exec (.jumpi x) s = .next { s with
        mar := x, mbr := s.mem.read x, pc := BitVec.ofNat 12 ((s.mem.read x).toNat % 4096) }

/-- R123: `Skipcond`: its word, the condition of each selector on the signed value of `AC`, and that it changes `PC` or nothing. -/
def Obligations.SkipcondSkipsOnItsCondition : Prop :=
  ∀ x : Addr, decode (0x8000#16 ||| x.setWidth 16) = .skipcond x ∧
    ∀ (s : State) (cond : Prop),
      (cond ↔ (x.extractLsb' 10 2 = 0 ∧ s.ac.toInt < 0) ∨ (x.extractLsb' 10 2 = 1 ∧ s.ac = 0) ∨
        (x.extractLsb' 10 2 = 2 ∧ 0 < s.ac.toInt)) →
      (cond → exec (.skipcond x) s = .next { s with pc := BitVec.ofNat 12 (s.pc.toNat + 1) }) ∧
      (¬cond → exec (.skipcond x) s = .next s)

/-- R123: of the selectors 0, 1, 2 exactly one holds of any `AC`; selector 3 never does; selector 0 is bit 15. -/
def Obligations.ExactlyOneSelectorHolds : Prop :=
  ∀ v : Word,
    skipCondition 0 v = v.getLsbD 15 ∧
    (skipCondition 1 v = true ↔ v.toNat = 0) ∧
    (skipCondition 2 v = true ↔ v.getLsbD 15 = false ∧ v.toNat ≠ 0) ∧
    skipCondition 3 v = false ∧
    [skipCondition 0 v, skipCondition 1 v, skipCondition 2 v].count true = 1

/-- R130: `Input` with a byte available or at the end of the stream: it completes, latches the byte (`IN_EOF_BYTE` at the end, for
every value of it), zero-extends it into `AC`, consumes exactly that byte, and changes nothing else. -/
def Obligations.InputLatchesTheNextByte : Prop :=
  (∀ low : Addr, decode (0x5000#16 ||| low.setWidth 16) = .input) ∧
  ∀ s : State,
    (∀ (b : Byte) (rest : List Byte), s.input = b :: rest →
      exec .input s = .next { s with input := rest, inReg := b, ac := b.setWidth 16 }) ∧
    (s.input = [] → s.inputEnded = true →
      exec .input s = .next { s with inReg := s.inEofByte, ac := s.inEofByte.setWidth 16 })

/-- R130, R81: an `Input` whose byte is not there yet, in a stream that has not ended, holds the engine: no step is taken and the
state does not change; a byte that arrives, or the end of the stream, lifts the hold. That a held step answers the unchanged state is
the model's choice (log 6). -/
def Obligations.InputWaitsForItsByte : Prop :=
  ∀ s : State, s.status = .run → s.stepMode = false → opcodeField (s.mem.read s.pc) = 5 →
    s.input = [] → s.inputEnded = false →
    s.held ∧ step s = .next s ∧ (s.applyEvent .inputEnds).enabled = true ∧
    ∀ b : Byte, (s.applyEvent (.byteIn b)).enabled = true

/-- R131: `Output`: `OutREG` takes the low byte of `AC`, exactly that byte is appended to the output stream, and nothing else
changes. -/
def Obligations.OutputEmitsTheLowByte : Prop :=
  (∀ low : Addr, decode (0x6000#16 ||| low.setWidth 16) = .output) ∧
  ∀ s : State, exec .output s = .next { s with
    outReg := BitVec.ofNat 8 (s.ac.toNat % 256), output := s.output ++ [BitVec.ofNat 8 (s.ac.toNat % 256)] }

/-- R132: `Halt`: `STATUS <- HALTED` and nothing else. -/
def Obligations.HaltStopsTheMachine : Prop :=
  (∀ low : Addr, decode (0x7000#16 ||| low.setWidth 16) = .halt) ∧
  ∀ s : State, exec .halt s = .next { s with status := .halted }

/-- R134: opcode 0xF: under `fatal` it takes the exception, `STATUS <- FAULT; FAULT_INFO <- (IR, MAR)`; under `nop` it completes with
no execute-phase effect. -/
def Obligations.UndefinedOpcodeFollowsThePolicy : Prop :=
  ∀ low : Addr, decode (0xF000#16 ||| low.setWidth 16) = .undefined0xF low ∧
    ∀ s : State,
      (s.undefPolicy = .fatal →
        exec (.undefined0xF low) s = .next { s with status := .fault, faultInfo := some ⟨s.ir, s.mar⟩ }) ∧
      (s.undefPolicy = .nop → exec (.undefined0xF low) s = .next s)

/-- R124: a subroutine entered by `JnS X` whose return slot is not overwritten returns by `JumpI X` to the word after the call,
and `AC` is carried across both. -/
def Obligations.ASubroutineReturnsBehindItsCall : Prop :=
  ∀ (x : Addr) (s t u v : State),
    s.enabled = true → s.mem.read s.pc = encode (.jns x) → step s = .next t →
    u.enabled = true → u.mem.read u.pc = encode (.jumpi x) → u.mem.read x = t.mem.read x → step u = .next v →
    t.pc = nextAddr x ∧ t.ac = s.ac ∧ v.pc = nextAddr s.pc ∧ v.ac = u.ac ∧ v.mem = u.mem

/-! ### Reset and load -/

/-- R24, R190: reset gives `PC = 0x100`, `STATUS = RUN`, no `FAULT_INFO`, an empty output stream, nothing consumed from the input
and memory as loaded, for every value of what it leaves open. -/
def Obligations.ResetLeavesWhatTheSpecGives : Prop :=
  (State.reset.pc = 0x100 ∧ State.reset.status = .run ∧ State.reset.faultInfo = none ∧ State.reset.output = [] ∧
    State.reset.undefPolicy = .fatal ∧ State.reset.stepMode = false ∧ State.reset.traceMode = false) ∧
  ∀ (r : RegReset) (p : RunParams) (fill : Memory) (image : List Word) (input : List Byte) (ended : Bool) (s : State),
    start r p fill image input ended = .ok s →
      s.pc = 0x100 ∧ s.status = .run ∧ s.faultInfo = none ∧ s.output = [] ∧ s.trace = [] ∧ s.input = input ∧
      load fill image = .ok s.mem

/-- R31, R192, S9: `LOAD` accepts exactly the images of at most 4096 words; word `i` of the image lies at `M[i]`, and every cell
behind the image keeps whatever `fill` holds, for every `fill`: those cells are unspecified (D6), and the argument stands for that
(log 2). That `LOAD` keeps the canonical form is a fact of the model's own form (log 1). -/
def Obligations.LoadPlacesTheImageFromZeroUpward : Prop :=
  ∀ (fill : Memory) (image : List Word),
    (4096 < image.length → load fill image = .error .tooLarge) ∧
    (image.length ≤ 4096 → ∃ m, load fill image = .ok m ∧ (fill.wf = true → m.wf = true) ∧
      ∀ a : Addr, m.read a = (image[a.toNat]?).getD (fill.read a))

/-- R31, D18: cutting the file of a sequence of words gives the words back, in either byte order; a file of an odd number of bytes
is refused (the model's choice, log 18). -/
def Obligations.ImageFilesHoldTheirWords : Prop :=
  ∀ order : ByteOrder,
    (∀ ws : List Word, wordsOfFile order (fileOfWords order ws) = .ok ws) ∧
    (∀ bytes : List Byte, bytes.length % 2 = 1 → wordsOfFile order bytes = .error .oddLength) ∧
    (∀ bytes : List Byte, bytes.length % 2 = 0 → ∃ ws, wordsOfFile order bytes = .ok ws ∧ fileOfWords order ws = bytes)

/-- What the host relies on (log 8): after `withFetchWord` the very next step is enabled and runs exactly the placed word; the
other words of memory are as before; and where the step was possible already, only memory changes: for a word that is no `Input`
the input stream does not matter. -/
def Obligations.PlacedWordRunsNext : Prop :=
  ∀ (s : State) (w : Nat), w < 65536 →
    (s.withFetchWord 16 w).enabled = true ∧ (s.withFetchWord 16 w).pc = s.pc ∧
    decodeTableWord 16 w = some (decode ((s.withFetchWord 16 w).mem.read s.pc)) ∧
    ((s.withFetchWord 16 w).mem.read s.pc).toNat = w ∧
    (∀ a : Addr, a ≠ s.pc → (s.withFetchWord 16 w).mem.read a = s.mem.read a) ∧
    (s.status = .run → s.faultInfo = none → (s.stepMode = true → 0 < s.stepAcks) →
      (isInputWord (BitVec.ofNat 16 w) = true → s.inputReady = true) →
      s.withFetchWord 16 w = { s with mem := s.mem.write s.pc (BitVec.ofNat 16 w) })

/-! ### The symbol-table matcher -/

/-- R146: the name order is a strict total order, and two names are equal when they are the same sequence of bytes. -/
def Obligations.NameOrderIsAStrictTotalOrder : Prop :=
  ∀ a b c : Name,
    (compareNames a b = .eq ↔ a = b) ∧ (compareNames a b = .lt ↔ compareNames b a = .gt) ∧
    (compareNames a b = .lt → compareNames b c = .lt → compareNames a c = .lt)

/-- R140, R144, R155: `INSERT` succeeds exactly in phase `collecting`, for a good name (log 14, log 19) that is new, below capacity; it appends the
symbol and keeps the table's invariant. -/
def Obligations.InsertAppendsANewSymbolOrRefuses : Prop :=
  ∀ (nameMax : Nat) (t : SymbolTable) (name : Name) (a : Addr),
    ((∃ t', t.insert nameMax name a = .ok t') ↔
      t.phase = .collecting ∧ nameOk nameMax name = true ∧ name ∉ t.entries.map (·.name) ∧ t.entries.length < 4096) ∧
    ∀ t', t.insert nameMax name a = .ok t' →
      t'.entries = t.entries ++ [⟨name, a⟩] ∧ t'.phase = .collecting ∧ (t.Invariant → t'.Invariant)

/-- R145: `FINALISE` makes the table the permutation of itself that is strictly increasing by name. -/
def Obligations.FinaliseSortsTheTable : Prop :=
  ∀ t t' : SymbolTable, t.Invariant → t.finalise = .ok t' →
    t'.entries.Perm t.entries ∧ SortedByName t'.entries ∧ t'.phase = .final ∧ t'.Invariant ∧
    ∀ other : List Symbol, other.Perm t.entries → SortedByName other → other = t'.entries

/-- R148: on a table that is strictly increasing by name the binary search answers as the contract of R147, for every name. -/
def Obligations.BinarySearchMeetsItsContract : Prop :=
  ∀ (entries : List Symbol) (name : Name), SortedByName entries →
    (binarySearch entries name).answer = findSymbol entries name

/-- R148: the search makes at most `floor(log2(n)) + 1` name comparisons for `n >= 1` and none for `n = 0`. -/
def Obligations.BinarySearchHalvesItsRange : Prop :=
  ∀ (entries : List Symbol) (name : Name),
    (entries = [] → (binarySearch entries name).probes = []) ∧
    (entries ≠ [] → (binarySearch entries name).probes.length ≤ Nat.log2 entries.length + 1)

/-- R147: after all insertions and `FINALISE`, `LOOKUP` is the finite map built by the insertions: it finds `a` exactly for the
names inserted with `a`, and answers absent for every other name. -/
def Obligations.LookupIsTheMapOfTheInsertions : Prop :=
  ∀ t t' : SymbolTable, t.Invariant → t.finalise = .ok t' → ∀ name : Name,
    (∀ a : Addr, t'.lookup name = .ok (some a) ↔ (⟨name, a⟩ : Symbol) ∈ t.entries) ∧
    (t'.lookup name = .ok none ↔ name ∉ t.entries.map (·.name))

/-! ### The assembler -/

/-- R152: patching a word that was written as `opcode << 12` makes it `encode` of the opcode and the value; the opcode bits of any
word are untouched; every other word keeps its value. -/
def Obligations.PatchingAssignsTheOperandField : Prop :=
  ∀ (image : Memory) (p v : Addr),
    (∀ op : Opcode, image.read p = wordOf op 0 → (patchWord image p v).read p = wordOf op v) ∧
    opcodeField ((patchWord image p v).read p) = opcodeField (image.read p) ∧
    ∀ a : Addr, a ≠ p → (patchWord image p v).read a = image.read a

/-- R72, R157: an operand token is a symbol first and a hexadecimal literal only if no symbol has that name, whatever numeral it
spells; a token that is neither, or a literal above 0xFFF, is refused. -/
def Obligations.SymbolsShadowLiterals : Prop :=
  ∀ (t : SymbolTable) (token : Text), t.Invariant → t.phase = .final →
    (∀ a : Addr, (⟨token, a⟩ : Symbol) ∈ t.entries → operandValue t token = some a) ∧
    (token ∉ t.entries.map (·.name) →
      (∀ v : Nat, hexValue token = some v → v ≤ 0xFFF → operandValue t token = some (BitVec.ofNat 12 v)) ∧
      (∀ v : Nat, hexValue token = some v → 0xFFF < v → operandValue t token = none) ∧
      (hexValue token = none → operandValue t token = none))

/-- R66: lines after `END` are ignored, whatever they hold. -/
def Obligations.LinesAfterEndAreIgnored : Prop :=
  ∀ (nameMax n : Nat) (before after : List Text) (sc : Scan),
    scanLines nameMax n (before ++ [ascii "END"] ++ after) sc = scanLines nameMax n (before ++ [ascii "END"]) sc

/-- R141, R150, R151: in every completed scan the pending operands patch words at strictly rising addresses below the cursor, which
is at most 4096, and the symbol table keeps its invariant in phase `collecting`. The bound of the cursor rests on the model's
reading that an `ORG` above 0xFFF is refused at its own line (log 15, DEDUCED from R68; by R65 it is caught at the next word). -/
def Obligations.PendingOperandsPatchDistinctWords : Prop :=
  ∀ (nameMax n : Nat) (lines : List Text) (sc : Scan), scanLines nameMax n lines Scan.start = .ok sc →
    (sc.pending.map (fun p => p.patchAddress.toNat)).Pairwise (· < ·) ∧
    (∀ p ∈ sc.pending, p.patchAddress.toNat < sc.cur) ∧ sc.cur ≤ 4096 ∧
    sc.table.phase = .collecting ∧ sc.table.Invariant

/-- R70, R192: whatever source text assembles gives an image that `LOAD` accepts. -/
def Obligations.AssembledImagesCanBeLoaded : Prop :=
  ∀ (nameMax : Nat) (source : Text) (image : List Word), assemble nameMax source = .ok image →
    image.length ≤ 4096 ∧ ∀ fill : Memory, ∃ m, load fill image = .ok m

/-- S1 (`spec/95_test_vectors.md`): for every program with no labels, assembling its source text and decoding the words recovers
the program exactly. The empty program's empty image and the line ends are the model's choices (logs 16, 14). -/
def Obligations.AssemblingThenDecodingRecoversTheProgram : Prop :=
  ∀ (nameMax : Nat) (program : List Instr), program.length ≤ 4096 → (∀ i ∈ program, i.isInstruction = true) →
    assemble nameMax (sourceText program) = .ok (program.map encode) ∧
    (program.map encode).map decode = program
end

