-- ==== Sys2Proof/Laws/Decode.lean ====
section
/-! SUPPORT. The fields of an encoded word (R52, R54, R73). -/

namespace Sys2Proof

/-- `(opcode << 12) | X` is the concatenation of its two fields. -/
theorem wordOf_eq_append (op : Opcode) (x : Addr) : wordOf op x = op ++ x := by
  apply BitVec.eq_of_toNat_eq
  simp only [wordOf, BitVec.toNat_or, BitVec.toNat_shiftLeft, BitVec.toNat_setWidth, BitVec.toNat_append]
  have h1 := op.isLt
  have h2 := x.isLt
  rw [Nat.mod_eq_of_lt (a := x.toNat) (by omega), Nat.mod_eq_of_lt (a := op.toNat) (by omega),
    Nat.mod_eq_of_lt (by rw [Nat.shiftLeft_eq]; omega)]

/-- The top nibble of an encoded word is its opcode. -/
theorem opcodeField_wordOf (op : Opcode) (x : Addr) : opcodeField (wordOf op x) = op := by
  rw [wordOf_eq_append]
  apply BitVec.eq_of_toNat_eq
  simp only [opcodeField, BitVec.extractLsb'_toNat, BitVec.toNat_append]
  have h1 := op.isLt
  have h2 := x.isLt
  rw [Nat.shiftLeft_eq, Nat.mul_comm, ← Nat.two_pow_add_eq_or_of_lt h2, Nat.shiftRight_eq_div_pow]
  omega

/-- The low 12 bits of an encoded word are its operand field. -/
theorem operandField_wordOf (op : Opcode) (x : Addr) : operandField (wordOf op x) = x := by
  rw [wordOf_eq_append]
  apply BitVec.eq_of_toNat_eq
  simp only [operandField, BitVec.extractLsb'_toNat, BitVec.toNat_append]
  have h1 := op.isLt
  have h2 := x.isLt
  rw [Nat.shiftLeft_eq, Nat.mul_comm, ← Nat.two_pow_add_eq_or_of_lt h2, Nat.shiftRight_zero]
  omega

/-- Decoding an encoded pair of fields selects by the opcode. -/
theorem decode_wordOf (op : Opcode) (x : Addr) : decode (wordOf op x) = instrOf op x := by
  unfold decode
  rw [opcodeField_wordOf, operandField_wordOf]

/-- The value of an encoded word. -/
theorem wordOf_toNat (op : Opcode) (x : Addr) : (wordOf op x).toNat = op.toNat * 4096 + x.toNat := by
  rw [wordOf_eq_append, BitVec.toNat_append, Nat.shiftLeft_eq, Nat.mul_comm, ← Nat.two_pow_add_eq_or_of_lt x.isLt]

/-- Every word is its two fields put together. -/
theorem wordOf_fields (w : Word) : wordOf (opcodeField w) (operandField w) = w := by
  rw [wordOf_eq_append]
  apply BitVec.eq_of_toNat_eq
  simp only [opcodeField, operandField, BitVec.extractLsb'_toNat, BitVec.toNat_append]
  have h := w.isLt
  have h2 : w.toNat >>> 0 % 2 ^ 12 < 2 ^ 12 := Nat.mod_lt _ (by decide)
  rw [Nat.shiftLeft_eq, Nat.mul_comm, ← Nat.two_pow_add_eq_or_of_lt h2, Nat.shiftRight_eq_div_pow, Nat.shiftRight_zero]
  omega

end Sys2Proof
end

