-- ==== Sys2Proof/Laws/Memory.lean ====
section
/-! SUPPORT. Memory: read after write, the canonical form and its uniqueness, and loading (R30, R31, R38). -/

namespace Sys2Proof.Machine

/-! ### Read after write -/

theorem Memory.readAt_eraseAt (m : Memory) (n a : Nat) :
    Memory.readAt (Memory.eraseAt m n) a = if a = n then Config.unlistedWord else Memory.readAt m a := by
  induction m with
  | nil => simp [Memory.eraseAt, Memory.readAt]
  | cons c m ih =>
    obtain ⟨k, w⟩ := c
    by_cases hk : k = n
    · have : Memory.eraseAt ((k, w) :: m) n = Memory.eraseAt m n := by simp [Memory.eraseAt, hk]
      rw [this, ih]
      by_cases ha : a = n
      · simp [ha]
      · simp [ha, Memory.readAt, hk, Ne.symm ha]
    · have : Memory.eraseAt ((k, w) :: m) n = (k, w) :: Memory.eraseAt m n := by simp [Memory.eraseAt, hk]
      rw [this]
      simp only [Memory.readAt, ih]
      by_cases ha : k = a
      · have : a ≠ n := by omega
        simp [ha, this]
      · simp [ha]

theorem Memory.readAt_insertAt (m : Memory) (n a : Nat) (v : Word) :
    Memory.readAt (Memory.insertAt m n v) a = if a = n then v else Memory.readAt m a := by
  induction m with
  | nil => simp [Memory.insertAt, Memory.readAt, eq_comm]
  | cons c m ih =>
    obtain ⟨k, w⟩ := c
    simp only [Memory.insertAt]
    split
    · simp [Memory.readAt, eq_comm]
    · split
      · rename_i h
        subst h
        by_cases ha : a = n
        · simp [Memory.readAt, ha]
        · simp [Memory.readAt, ha, Ne.symm ha]
      · simp only [Memory.readAt, ih]
        by_cases ha : k = a
        · have : a ≠ n := by omega
          simp [ha, this]
        · simp [ha]

/-- Everything a write does to what is read: the word written at its address, every other word as before. -/
theorem Memory.readAt_writeAt (m : Memory) (n a : Nat) (v : Word) :
    Memory.readAt (Memory.writeAt m n v) a = if a = n then v else Memory.readAt m a := by
  unfold Memory.writeAt
  split
  · rename_i hv
    rw [Memory.readAt_eraseAt, hv]
  · exact Memory.readAt_insertAt m n a v

theorem Memory.read_write_same (m : Memory) (a : Addr) (v : Word) : (m.write a v).read a = v := by
  simp [Memory.read, Memory.write, Memory.readAt_writeAt]

theorem Memory.read_write_other (m : Memory) {a b : Addr} (v : Word) (h : b ≠ a) :
    (m.write a v).read b = m.read b := by
  have : b.toNat ≠ a.toNat := fun e => h (BitVec.eq_of_toNat_eq e)
  simp [Memory.read, Memory.write, Memory.readAt_writeAt, this]

/-! ### The canonical form -/

theorem Memory.wfFrom_cons {lo k : Nat} {v : Word} {m : Memory} :
    Memory.wfFrom lo ((k, v) :: m) = true ↔
      lo ≤ k ∧ k < Config.memWords ∧ v ≠ Config.unlistedWord ∧ Memory.wfFrom (k + 1) m = true := by
  simp [Memory.wfFrom, and_assoc]

theorem Memory.wfFrom_mono {m : Memory} {lo lo' : Nat} (h : lo ≤ lo') (hm : Memory.wfFrom lo' m = true) :
    Memory.wfFrom lo m = true := by
  cases m with
  | nil => rfl
  | cons c m =>
    obtain ⟨h1, h2⟩ := Memory.wfFrom_cons.1 hm
    exact Memory.wfFrom_cons.2 ⟨by omega, h2⟩

/-- Below the first address of a canonical list nothing is listed. -/
theorem Memory.readAt_below {m : Memory} {lo n : Nat} (hm : Memory.wfFrom lo m = true) (hn : n < lo) :
    Memory.readAt m n = Config.unlistedWord := by
  induction m generalizing lo with
  | nil => rfl
  | cons c m ih =>
    obtain ⟨h1, -, -, h4⟩ := Memory.wfFrom_cons.1 hm
    simp only [Memory.readAt]
    rw [if_neg (by omega)]
    exact ih h4 (by omega)

theorem Memory.wfFrom_eraseAt {m : Memory} {lo : Nat} (n : Nat) (hm : Memory.wfFrom lo m = true) :
    Memory.wfFrom lo (Memory.eraseAt m n) = true := by
  induction m generalizing lo with
  | nil => rfl
  | cons c m ih =>
    obtain ⟨k, w⟩ := c
    obtain ⟨h1, h2, h3, h4⟩ := Memory.wfFrom_cons.1 hm
    by_cases hk : k = n
    · have : Memory.eraseAt ((k, w) :: m) n = Memory.eraseAt m n := by simp [Memory.eraseAt, hk]
      rw [this]
      exact Memory.wfFrom_mono (by omega) (ih h4)
    · have : Memory.eraseAt ((k, w) :: m) n = (k, w) :: Memory.eraseAt m n := by simp [Memory.eraseAt, hk]
      rw [this]
      exact Memory.wfFrom_cons.2 ⟨h1, h2, h3, ih h4⟩

theorem Memory.wfFrom_insertAt {m : Memory} {lo n : Nat} {v : Word} (hlo : lo ≤ n) (hn : n < Config.memWords)
    (hv : v ≠ Config.unlistedWord) (hm : Memory.wfFrom lo m = true) :
    Memory.wfFrom lo (Memory.insertAt m n v) = true := by
  induction m generalizing lo with
  | nil => exact Memory.wfFrom_cons.2 ⟨hlo, hn, hv, rfl⟩
  | cons c m ih =>
    obtain ⟨k, w⟩ := c
    obtain ⟨h1, h2, h3, h4⟩ := Memory.wfFrom_cons.1 hm
    simp only [Memory.insertAt]
    split
    · exact Memory.wfFrom_cons.2 ⟨hlo, hn, hv, Memory.wfFrom_cons.2 ⟨by omega, h2, h3, h4⟩⟩
    · split
      · subst n
        exact Memory.wfFrom_cons.2 ⟨h1, h2, hv, h4⟩
      · exact Memory.wfFrom_cons.2 ⟨h1, h2, h3, ih (by omega) h4⟩

/-- Every write of a word to an address below 4096 keeps the canonical form. -/
theorem Memory.wf_writeAt {m : Memory} {n : Nat} (v : Word) (hn : n < Config.memWords) (hm : m.wf = true) :
    Memory.wf (Memory.writeAt m n v) = true := by
  unfold Memory.writeAt
  split
  · exact Memory.wfFrom_eraseAt n hm
  · exact Memory.wfFrom_insertAt (Nat.zero_le n) hn ‹_› hm

theorem Memory.wf_write {m : Memory} (a : Addr) (v : Word) (hm : m.wf = true) : (m.write a v).wf = true :=
  Memory.wf_writeAt v a.isLt hm

/-- Loading keeps the canonical form, as long as the words fit below 4096. -/
theorem Memory.wf_writeFrom {ws : List Word} {m : Memory} {n : Nat} (hn : n + ws.length ≤ Config.memWords)
    (hm : m.wf = true) : (Memory.writeFrom m n ws).wf = true := by
  induction ws generalizing m n with
  | nil => exact hm
  | cons w ws ih =>
    simp only [List.length_cons] at hn
    exact ih (by omega) (Memory.wf_writeAt w (by omega) hm)

/-- `LOAD` keeps the canonical form. -/
theorem load_wf {fill m : Memory} {image : List Word} (hf : fill.wf = true) (h : load fill image = .ok m) :
    m.wf = true := by
  unfold load at h
  split at h
  · cases h
    exact Memory.wf_writeFrom (by omega) hf
  · cases h

/-- Reset memory is canonical. -/
theorem reset_mem_wf : State.reset.mem.wf = true := rfl

end Sys2Proof.Machine
end

