-- ==== Sys2Proof/Laws/State.lean ====
section
/-! SUPPORT. What each update of the state does to each field: one lemma per field per update, for `simp`. -/

namespace Sys2Proof.Machine

/-! ### `setAc` -/

@[simp] theorem State.setAc_ac (v : Word) (s : State) : (State.setAc v s).ac = v := rfl
@[simp] theorem State.setAc_pc (v : Word) (s : State) : (State.setAc v s).pc = s.pc := rfl
@[simp] theorem State.setAc_ir (v : Word) (s : State) : (State.setAc v s).ir = s.ir := rfl
@[simp] theorem State.setAc_mar (v : Word) (s : State) : (State.setAc v s).mar = s.mar := rfl
@[simp] theorem State.setAc_mbr (v : Word) (s : State) : (State.setAc v s).mbr = s.mbr := rfl
@[simp] theorem State.setAc_inReg (v : Word) (s : State) : (State.setAc v s).inReg = s.inReg := rfl
@[simp] theorem State.setAc_outReg (v : Word) (s : State) : (State.setAc v s).outReg = s.outReg := rfl
@[simp] theorem State.setAc_status (v : Word) (s : State) : (State.setAc v s).status = s.status := rfl
@[simp] theorem State.setAc_faultInfo (v : Word) (s : State) : (State.setAc v s).faultInfo = s.faultInfo := rfl
@[simp] theorem State.setAc_mem (v : Word) (s : State) : (State.setAc v s).mem = s.mem := rfl
@[simp] theorem State.setAc_input (v : Word) (s : State) : (State.setAc v s).input = s.input := rfl
@[simp] theorem State.setAc_inputEnded (v : Word) (s : State) : (State.setAc v s).inputEnded = s.inputEnded := rfl
@[simp] theorem State.setAc_output (v : Word) (s : State) : (State.setAc v s).output = s.output := rfl
@[simp] theorem State.setAc_stepAcks (v : Word) (s : State) : (State.setAc v s).stepAcks = s.stepAcks := rfl
@[simp] theorem State.setAc_trace (v : Word) (s : State) : (State.setAc v s).trace = s.trace := rfl
@[simp] theorem State.setAc_undefPolicy (v : Word) (s : State) : (State.setAc v s).undefPolicy = s.undefPolicy := rfl
@[simp] theorem State.setAc_stepMode (v : Word) (s : State) : (State.setAc v s).stepMode = s.stepMode := rfl
@[simp] theorem State.setAc_traceMode (v : Word) (s : State) : (State.setAc v s).traceMode = s.traceMode := rfl
@[simp] theorem State.setAc_inEofByte (v : Word) (s : State) : (State.setAc v s).inEofByte = s.inEofByte := rfl

/-! ### `setPc` -/

@[simp] theorem State.setPc_ac (a : Addr) (s : State) : (State.setPc a s).ac = s.ac := rfl
@[simp] theorem State.setPc_pc (a : Addr) (s : State) : (State.setPc a s).pc = a := rfl
@[simp] theorem State.setPc_ir (a : Addr) (s : State) : (State.setPc a s).ir = s.ir := rfl
@[simp] theorem State.setPc_mar (a : Addr) (s : State) : (State.setPc a s).mar = s.mar := rfl
@[simp] theorem State.setPc_mbr (a : Addr) (s : State) : (State.setPc a s).mbr = s.mbr := rfl
@[simp] theorem State.setPc_inReg (a : Addr) (s : State) : (State.setPc a s).inReg = s.inReg := rfl
@[simp] theorem State.setPc_outReg (a : Addr) (s : State) : (State.setPc a s).outReg = s.outReg := rfl
@[simp] theorem State.setPc_status (a : Addr) (s : State) : (State.setPc a s).status = s.status := rfl
@[simp] theorem State.setPc_faultInfo (a : Addr) (s : State) : (State.setPc a s).faultInfo = s.faultInfo := rfl
@[simp] theorem State.setPc_mem (a : Addr) (s : State) : (State.setPc a s).mem = s.mem := rfl
@[simp] theorem State.setPc_input (a : Addr) (s : State) : (State.setPc a s).input = s.input := rfl
@[simp] theorem State.setPc_inputEnded (a : Addr) (s : State) : (State.setPc a s).inputEnded = s.inputEnded := rfl
@[simp] theorem State.setPc_output (a : Addr) (s : State) : (State.setPc a s).output = s.output := rfl
@[simp] theorem State.setPc_stepAcks (a : Addr) (s : State) : (State.setPc a s).stepAcks = s.stepAcks := rfl
@[simp] theorem State.setPc_trace (a : Addr) (s : State) : (State.setPc a s).trace = s.trace := rfl
@[simp] theorem State.setPc_undefPolicy (a : Addr) (s : State) : (State.setPc a s).undefPolicy = s.undefPolicy := rfl
@[simp] theorem State.setPc_stepMode (a : Addr) (s : State) : (State.setPc a s).stepMode = s.stepMode := rfl
@[simp] theorem State.setPc_traceMode (a : Addr) (s : State) : (State.setPc a s).traceMode = s.traceMode := rfl
@[simp] theorem State.setPc_inEofByte (a : Addr) (s : State) : (State.setPc a s).inEofByte = s.inEofByte := rfl

/-! ### `setMar` -/

@[simp] theorem State.setMar_ac (a : Addr) (s : State) : (State.setMar a s).ac = s.ac := rfl
@[simp] theorem State.setMar_pc (a : Addr) (s : State) : (State.setMar a s).pc = s.pc := rfl
@[simp] theorem State.setMar_ir (a : Addr) (s : State) : (State.setMar a s).ir = s.ir := rfl
@[simp] theorem State.setMar_mar (a : Addr) (s : State) : (State.setMar a s).mar = a := rfl
@[simp] theorem State.setMar_mbr (a : Addr) (s : State) : (State.setMar a s).mbr = s.mbr := rfl
@[simp] theorem State.setMar_inReg (a : Addr) (s : State) : (State.setMar a s).inReg = s.inReg := rfl
@[simp] theorem State.setMar_outReg (a : Addr) (s : State) : (State.setMar a s).outReg = s.outReg := rfl
@[simp] theorem State.setMar_status (a : Addr) (s : State) : (State.setMar a s).status = s.status := rfl
@[simp] theorem State.setMar_faultInfo (a : Addr) (s : State) : (State.setMar a s).faultInfo = s.faultInfo := rfl
@[simp] theorem State.setMar_mem (a : Addr) (s : State) : (State.setMar a s).mem = s.mem := rfl
@[simp] theorem State.setMar_input (a : Addr) (s : State) : (State.setMar a s).input = s.input := rfl
@[simp] theorem State.setMar_inputEnded (a : Addr) (s : State) : (State.setMar a s).inputEnded = s.inputEnded := rfl
@[simp] theorem State.setMar_output (a : Addr) (s : State) : (State.setMar a s).output = s.output := rfl
@[simp] theorem State.setMar_stepAcks (a : Addr) (s : State) : (State.setMar a s).stepAcks = s.stepAcks := rfl
@[simp] theorem State.setMar_trace (a : Addr) (s : State) : (State.setMar a s).trace = s.trace := rfl
@[simp] theorem State.setMar_undefPolicy (a : Addr) (s : State) : (State.setMar a s).undefPolicy = s.undefPolicy := rfl
@[simp] theorem State.setMar_stepMode (a : Addr) (s : State) : (State.setMar a s).stepMode = s.stepMode := rfl
@[simp] theorem State.setMar_traceMode (a : Addr) (s : State) : (State.setMar a s).traceMode = s.traceMode := rfl
@[simp] theorem State.setMar_inEofByte (a : Addr) (s : State) : (State.setMar a s).inEofByte = s.inEofByte := rfl

/-! ### `setMbr` -/

@[simp] theorem State.setMbr_ac (v : Word) (s : State) : (State.setMbr v s).ac = s.ac := rfl
@[simp] theorem State.setMbr_pc (v : Word) (s : State) : (State.setMbr v s).pc = s.pc := rfl
@[simp] theorem State.setMbr_ir (v : Word) (s : State) : (State.setMbr v s).ir = s.ir := rfl
@[simp] theorem State.setMbr_mar (v : Word) (s : State) : (State.setMbr v s).mar = s.mar := rfl
@[simp] theorem State.setMbr_mbr (v : Word) (s : State) : (State.setMbr v s).mbr = v := rfl
@[simp] theorem State.setMbr_inReg (v : Word) (s : State) : (State.setMbr v s).inReg = s.inReg := rfl
@[simp] theorem State.setMbr_outReg (v : Word) (s : State) : (State.setMbr v s).outReg = s.outReg := rfl
@[simp] theorem State.setMbr_status (v : Word) (s : State) : (State.setMbr v s).status = s.status := rfl
@[simp] theorem State.setMbr_faultInfo (v : Word) (s : State) : (State.setMbr v s).faultInfo = s.faultInfo := rfl
@[simp] theorem State.setMbr_mem (v : Word) (s : State) : (State.setMbr v s).mem = s.mem := rfl
@[simp] theorem State.setMbr_input (v : Word) (s : State) : (State.setMbr v s).input = s.input := rfl
@[simp] theorem State.setMbr_inputEnded (v : Word) (s : State) : (State.setMbr v s).inputEnded = s.inputEnded := rfl
@[simp] theorem State.setMbr_output (v : Word) (s : State) : (State.setMbr v s).output = s.output := rfl
@[simp] theorem State.setMbr_stepAcks (v : Word) (s : State) : (State.setMbr v s).stepAcks = s.stepAcks := rfl
@[simp] theorem State.setMbr_trace (v : Word) (s : State) : (State.setMbr v s).trace = s.trace := rfl
@[simp] theorem State.setMbr_undefPolicy (v : Word) (s : State) : (State.setMbr v s).undefPolicy = s.undefPolicy := rfl
@[simp] theorem State.setMbr_stepMode (v : Word) (s : State) : (State.setMbr v s).stepMode = s.stepMode := rfl
@[simp] theorem State.setMbr_traceMode (v : Word) (s : State) : (State.setMbr v s).traceMode = s.traceMode := rfl
@[simp] theorem State.setMbr_inEofByte (v : Word) (s : State) : (State.setMbr v s).inEofByte = s.inEofByte := rfl

/-! ### `setIr` -/

@[simp] theorem State.setIr_ac (v : Word) (s : State) : (State.setIr v s).ac = s.ac := rfl
@[simp] theorem State.setIr_pc (v : Word) (s : State) : (State.setIr v s).pc = s.pc := rfl
@[simp] theorem State.setIr_ir (v : Word) (s : State) : (State.setIr v s).ir = v := rfl
@[simp] theorem State.setIr_mar (v : Word) (s : State) : (State.setIr v s).mar = s.mar := rfl
@[simp] theorem State.setIr_mbr (v : Word) (s : State) : (State.setIr v s).mbr = s.mbr := rfl
@[simp] theorem State.setIr_inReg (v : Word) (s : State) : (State.setIr v s).inReg = s.inReg := rfl
@[simp] theorem State.setIr_outReg (v : Word) (s : State) : (State.setIr v s).outReg = s.outReg := rfl
@[simp] theorem State.setIr_status (v : Word) (s : State) : (State.setIr v s).status = s.status := rfl
@[simp] theorem State.setIr_faultInfo (v : Word) (s : State) : (State.setIr v s).faultInfo = s.faultInfo := rfl
@[simp] theorem State.setIr_mem (v : Word) (s : State) : (State.setIr v s).mem = s.mem := rfl
@[simp] theorem State.setIr_input (v : Word) (s : State) : (State.setIr v s).input = s.input := rfl
@[simp] theorem State.setIr_inputEnded (v : Word) (s : State) : (State.setIr v s).inputEnded = s.inputEnded := rfl
@[simp] theorem State.setIr_output (v : Word) (s : State) : (State.setIr v s).output = s.output := rfl
@[simp] theorem State.setIr_stepAcks (v : Word) (s : State) : (State.setIr v s).stepAcks = s.stepAcks := rfl
@[simp] theorem State.setIr_trace (v : Word) (s : State) : (State.setIr v s).trace = s.trace := rfl
@[simp] theorem State.setIr_undefPolicy (v : Word) (s : State) : (State.setIr v s).undefPolicy = s.undefPolicy := rfl
@[simp] theorem State.setIr_stepMode (v : Word) (s : State) : (State.setIr v s).stepMode = s.stepMode := rfl
@[simp] theorem State.setIr_traceMode (v : Word) (s : State) : (State.setIr v s).traceMode = s.traceMode := rfl
@[simp] theorem State.setIr_inEofByte (v : Word) (s : State) : (State.setIr v s).inEofByte = s.inEofByte := rfl

/-! ### `setInReg` -/

@[simp] theorem State.setInReg_ac (b : Byte) (s : State) : (State.setInReg b s).ac = s.ac := rfl
@[simp] theorem State.setInReg_pc (b : Byte) (s : State) : (State.setInReg b s).pc = s.pc := rfl
@[simp] theorem State.setInReg_ir (b : Byte) (s : State) : (State.setInReg b s).ir = s.ir := rfl
@[simp] theorem State.setInReg_mar (b : Byte) (s : State) : (State.setInReg b s).mar = s.mar := rfl
@[simp] theorem State.setInReg_mbr (b : Byte) (s : State) : (State.setInReg b s).mbr = s.mbr := rfl
@[simp] theorem State.setInReg_inReg (b : Byte) (s : State) : (State.setInReg b s).inReg = b := rfl
@[simp] theorem State.setInReg_outReg (b : Byte) (s : State) : (State.setInReg b s).outReg = s.outReg := rfl
@[simp] theorem State.setInReg_status (b : Byte) (s : State) : (State.setInReg b s).status = s.status := rfl
@[simp] theorem State.setInReg_faultInfo (b : Byte) (s : State) : (State.setInReg b s).faultInfo = s.faultInfo := rfl
@[simp] theorem State.setInReg_mem (b : Byte) (s : State) : (State.setInReg b s).mem = s.mem := rfl
@[simp] theorem State.setInReg_input (b : Byte) (s : State) : (State.setInReg b s).input = s.input := rfl
@[simp] theorem State.setInReg_inputEnded (b : Byte) (s : State) : (State.setInReg b s).inputEnded = s.inputEnded := rfl
@[simp] theorem State.setInReg_output (b : Byte) (s : State) : (State.setInReg b s).output = s.output := rfl
@[simp] theorem State.setInReg_stepAcks (b : Byte) (s : State) : (State.setInReg b s).stepAcks = s.stepAcks := rfl
@[simp] theorem State.setInReg_trace (b : Byte) (s : State) : (State.setInReg b s).trace = s.trace := rfl
@[simp] theorem State.setInReg_undefPolicy (b : Byte) (s : State) : (State.setInReg b s).undefPolicy = s.undefPolicy := rfl
@[simp] theorem State.setInReg_stepMode (b : Byte) (s : State) : (State.setInReg b s).stepMode = s.stepMode := rfl
@[simp] theorem State.setInReg_traceMode (b : Byte) (s : State) : (State.setInReg b s).traceMode = s.traceMode := rfl
@[simp] theorem State.setInReg_inEofByte (b : Byte) (s : State) : (State.setInReg b s).inEofByte = s.inEofByte := rfl

/-! ### `setOutReg` -/

@[simp] theorem State.setOutReg_ac (b : Byte) (s : State) : (State.setOutReg b s).ac = s.ac := rfl
@[simp] theorem State.setOutReg_pc (b : Byte) (s : State) : (State.setOutReg b s).pc = s.pc := rfl
@[simp] theorem State.setOutReg_ir (b : Byte) (s : State) : (State.setOutReg b s).ir = s.ir := rfl
@[simp] theorem State.setOutReg_mar (b : Byte) (s : State) : (State.setOutReg b s).mar = s.mar := rfl
@[simp] theorem State.setOutReg_mbr (b : Byte) (s : State) : (State.setOutReg b s).mbr = s.mbr := rfl
@[simp] theorem State.setOutReg_inReg (b : Byte) (s : State) : (State.setOutReg b s).inReg = s.inReg := rfl
@[simp] theorem State.setOutReg_outReg (b : Byte) (s : State) : (State.setOutReg b s).outReg = b := rfl
@[simp] theorem State.setOutReg_status (b : Byte) (s : State) : (State.setOutReg b s).status = s.status := rfl
@[simp] theorem State.setOutReg_faultInfo (b : Byte) (s : State) : (State.setOutReg b s).faultInfo = s.faultInfo := rfl
@[simp] theorem State.setOutReg_mem (b : Byte) (s : State) : (State.setOutReg b s).mem = s.mem := rfl
@[simp] theorem State.setOutReg_input (b : Byte) (s : State) : (State.setOutReg b s).input = s.input := rfl
@[simp] theorem State.setOutReg_inputEnded (b : Byte) (s : State) : (State.setOutReg b s).inputEnded = s.inputEnded := rfl
@[simp] theorem State.setOutReg_output (b : Byte) (s : State) : (State.setOutReg b s).output = s.output := rfl
@[simp] theorem State.setOutReg_stepAcks (b : Byte) (s : State) : (State.setOutReg b s).stepAcks = s.stepAcks := rfl
@[simp] theorem State.setOutReg_trace (b : Byte) (s : State) : (State.setOutReg b s).trace = s.trace := rfl
@[simp] theorem State.setOutReg_undefPolicy (b : Byte) (s : State) : (State.setOutReg b s).undefPolicy = s.undefPolicy := rfl
@[simp] theorem State.setOutReg_stepMode (b : Byte) (s : State) : (State.setOutReg b s).stepMode = s.stepMode := rfl
@[simp] theorem State.setOutReg_traceMode (b : Byte) (s : State) : (State.setOutReg b s).traceMode = s.traceMode := rfl
@[simp] theorem State.setOutReg_inEofByte (b : Byte) (s : State) : (State.setOutReg b s).inEofByte = s.inEofByte := rfl

/-! ### `setStatus` -/

@[simp] theorem State.setStatus_ac (st : Status) (s : State) : (State.setStatus st s).ac = s.ac := rfl
@[simp] theorem State.setStatus_pc (st : Status) (s : State) : (State.setStatus st s).pc = s.pc := rfl
@[simp] theorem State.setStatus_ir (st : Status) (s : State) : (State.setStatus st s).ir = s.ir := rfl
@[simp] theorem State.setStatus_mar (st : Status) (s : State) : (State.setStatus st s).mar = s.mar := rfl
@[simp] theorem State.setStatus_mbr (st : Status) (s : State) : (State.setStatus st s).mbr = s.mbr := rfl
@[simp] theorem State.setStatus_inReg (st : Status) (s : State) : (State.setStatus st s).inReg = s.inReg := rfl
@[simp] theorem State.setStatus_outReg (st : Status) (s : State) : (State.setStatus st s).outReg = s.outReg := rfl
@[simp] theorem State.setStatus_status (st : Status) (s : State) : (State.setStatus st s).status = st := rfl
@[simp] theorem State.setStatus_faultInfo (st : Status) (s : State) : (State.setStatus st s).faultInfo = s.faultInfo := rfl
@[simp] theorem State.setStatus_mem (st : Status) (s : State) : (State.setStatus st s).mem = s.mem := rfl
@[simp] theorem State.setStatus_input (st : Status) (s : State) : (State.setStatus st s).input = s.input := rfl
@[simp] theorem State.setStatus_inputEnded (st : Status) (s : State) : (State.setStatus st s).inputEnded = s.inputEnded := rfl
@[simp] theorem State.setStatus_output (st : Status) (s : State) : (State.setStatus st s).output = s.output := rfl
@[simp] theorem State.setStatus_stepAcks (st : Status) (s : State) : (State.setStatus st s).stepAcks = s.stepAcks := rfl
@[simp] theorem State.setStatus_trace (st : Status) (s : State) : (State.setStatus st s).trace = s.trace := rfl
@[simp] theorem State.setStatus_undefPolicy (st : Status) (s : State) : (State.setStatus st s).undefPolicy = s.undefPolicy := rfl
@[simp] theorem State.setStatus_stepMode (st : Status) (s : State) : (State.setStatus st s).stepMode = s.stepMode := rfl
@[simp] theorem State.setStatus_traceMode (st : Status) (s : State) : (State.setStatus st s).traceMode = s.traceMode := rfl
@[simp] theorem State.setStatus_inEofByte (st : Status) (s : State) : (State.setStatus st s).inEofByte = s.inEofByte := rfl

/-! ### `readMbr` -/

@[simp] theorem State.readMbr_ac (s : State) : (State.readMbr s).ac = s.ac := rfl
@[simp] theorem State.readMbr_pc (s : State) : (State.readMbr s).pc = s.pc := rfl
@[simp] theorem State.readMbr_ir (s : State) : (State.readMbr s).ir = s.ir := rfl
@[simp] theorem State.readMbr_mar (s : State) : (State.readMbr s).mar = s.mar := rfl
@[simp] theorem State.readMbr_mbr (s : State) : (State.readMbr s).mbr = s.mem.read s.mar := rfl
@[simp] theorem State.readMbr_inReg (s : State) : (State.readMbr s).inReg = s.inReg := rfl
@[simp] theorem State.readMbr_outReg (s : State) : (State.readMbr s).outReg = s.outReg := rfl
@[simp] theorem State.readMbr_status (s : State) : (State.readMbr s).status = s.status := rfl
@[simp] theorem State.readMbr_faultInfo (s : State) : (State.readMbr s).faultInfo = s.faultInfo := rfl
@[simp] theorem State.readMbr_mem (s : State) : (State.readMbr s).mem = s.mem := rfl
@[simp] theorem State.readMbr_input (s : State) : (State.readMbr s).input = s.input := rfl
@[simp] theorem State.readMbr_inputEnded (s : State) : (State.readMbr s).inputEnded = s.inputEnded := rfl
@[simp] theorem State.readMbr_output (s : State) : (State.readMbr s).output = s.output := rfl
@[simp] theorem State.readMbr_stepAcks (s : State) : (State.readMbr s).stepAcks = s.stepAcks := rfl
@[simp] theorem State.readMbr_trace (s : State) : (State.readMbr s).trace = s.trace := rfl
@[simp] theorem State.readMbr_undefPolicy (s : State) : (State.readMbr s).undefPolicy = s.undefPolicy := rfl
@[simp] theorem State.readMbr_stepMode (s : State) : (State.readMbr s).stepMode = s.stepMode := rfl
@[simp] theorem State.readMbr_traceMode (s : State) : (State.readMbr s).traceMode = s.traceMode := rfl
@[simp] theorem State.readMbr_inEofByte (s : State) : (State.readMbr s).inEofByte = s.inEofByte := rfl

/-! ### `writeMbr` -/

@[simp] theorem State.writeMbr_ac (s : State) : (State.writeMbr s).ac = s.ac := rfl
@[simp] theorem State.writeMbr_pc (s : State) : (State.writeMbr s).pc = s.pc := rfl
@[simp] theorem State.writeMbr_ir (s : State) : (State.writeMbr s).ir = s.ir := rfl
@[simp] theorem State.writeMbr_mar (s : State) : (State.writeMbr s).mar = s.mar := rfl
@[simp] theorem State.writeMbr_mbr (s : State) : (State.writeMbr s).mbr = s.mbr := rfl
@[simp] theorem State.writeMbr_inReg (s : State) : (State.writeMbr s).inReg = s.inReg := rfl
@[simp] theorem State.writeMbr_outReg (s : State) : (State.writeMbr s).outReg = s.outReg := rfl
@[simp] theorem State.writeMbr_status (s : State) : (State.writeMbr s).status = s.status := rfl
@[simp] theorem State.writeMbr_faultInfo (s : State) : (State.writeMbr s).faultInfo = s.faultInfo := rfl
@[simp] theorem State.writeMbr_mem (s : State) : (State.writeMbr s).mem = s.mem.write s.mar s.mbr := rfl
@[simp] theorem State.writeMbr_input (s : State) : (State.writeMbr s).input = s.input := rfl
@[simp] theorem State.writeMbr_inputEnded (s : State) : (State.writeMbr s).inputEnded = s.inputEnded := rfl
@[simp] theorem State.writeMbr_output (s : State) : (State.writeMbr s).output = s.output := rfl
@[simp] theorem State.writeMbr_stepAcks (s : State) : (State.writeMbr s).stepAcks = s.stepAcks := rfl
@[simp] theorem State.writeMbr_trace (s : State) : (State.writeMbr s).trace = s.trace := rfl
@[simp] theorem State.writeMbr_undefPolicy (s : State) : (State.writeMbr s).undefPolicy = s.undefPolicy := rfl
@[simp] theorem State.writeMbr_stepMode (s : State) : (State.writeMbr s).stepMode = s.stepMode := rfl
@[simp] theorem State.writeMbr_traceMode (s : State) : (State.writeMbr s).traceMode = s.traceMode := rfl
@[simp] theorem State.writeMbr_inEofByte (s : State) : (State.writeMbr s).inEofByte = s.inEofByte := rfl

/-! ### `fetch` -/

@[simp] theorem State.fetch_ac (s : State) : (State.fetch s).ac = s.ac := rfl
@[simp] theorem State.fetch_pc (s : State) : (State.fetch s).pc = nextAddr s.pc := rfl
@[simp] theorem State.fetch_ir (s : State) : (State.fetch s).ir = s.mem.read s.pc := rfl
@[simp] theorem State.fetch_mar (s : State) : (State.fetch s).mar = s.pc := rfl
@[simp] theorem State.fetch_mbr (s : State) : (State.fetch s).mbr = s.mbr := rfl
@[simp] theorem State.fetch_inReg (s : State) : (State.fetch s).inReg = s.inReg := rfl
@[simp] theorem State.fetch_outReg (s : State) : (State.fetch s).outReg = s.outReg := rfl
@[simp] theorem State.fetch_status (s : State) : (State.fetch s).status = s.status := rfl
@[simp] theorem State.fetch_faultInfo (s : State) : (State.fetch s).faultInfo = s.faultInfo := rfl
@[simp] theorem State.fetch_mem (s : State) : (State.fetch s).mem = s.mem := rfl
@[simp] theorem State.fetch_input (s : State) : (State.fetch s).input = s.input := rfl
@[simp] theorem State.fetch_inputEnded (s : State) : (State.fetch s).inputEnded = s.inputEnded := rfl
@[simp] theorem State.fetch_output (s : State) : (State.fetch s).output = s.output := rfl
@[simp] theorem State.fetch_stepAcks (s : State) : (State.fetch s).stepAcks = s.stepAcks := rfl
@[simp] theorem State.fetch_trace (s : State) : (State.fetch s).trace = s.trace := rfl
@[simp] theorem State.fetch_undefPolicy (s : State) : (State.fetch s).undefPolicy = s.undefPolicy := rfl
@[simp] theorem State.fetch_stepMode (s : State) : (State.fetch s).stepMode = s.stepMode := rfl
@[simp] theorem State.fetch_traceMode (s : State) : (State.fetch s).traceMode = s.traceMode := rfl
@[simp] theorem State.fetch_inEofByte (s : State) : (State.fetch s).inEofByte = s.inEofByte := rfl

/-! ### `outEmit` -/

@[simp] theorem State.outEmit_ac (b : Byte) (s : State) : (State.outEmit b s).ac = s.ac := rfl
@[simp] theorem State.outEmit_pc (b : Byte) (s : State) : (State.outEmit b s).pc = s.pc := rfl
@[simp] theorem State.outEmit_ir (b : Byte) (s : State) : (State.outEmit b s).ir = s.ir := rfl
@[simp] theorem State.outEmit_mar (b : Byte) (s : State) : (State.outEmit b s).mar = s.mar := rfl
@[simp] theorem State.outEmit_mbr (b : Byte) (s : State) : (State.outEmit b s).mbr = s.mbr := rfl
@[simp] theorem State.outEmit_inReg (b : Byte) (s : State) : (State.outEmit b s).inReg = s.inReg := rfl
@[simp] theorem State.outEmit_outReg (b : Byte) (s : State) : (State.outEmit b s).outReg = s.outReg := rfl
@[simp] theorem State.outEmit_status (b : Byte) (s : State) : (State.outEmit b s).status = s.status := rfl
@[simp] theorem State.outEmit_faultInfo (b : Byte) (s : State) : (State.outEmit b s).faultInfo = s.faultInfo := rfl
@[simp] theorem State.outEmit_mem (b : Byte) (s : State) : (State.outEmit b s).mem = s.mem := rfl
@[simp] theorem State.outEmit_input (b : Byte) (s : State) : (State.outEmit b s).input = s.input := rfl
@[simp] theorem State.outEmit_inputEnded (b : Byte) (s : State) : (State.outEmit b s).inputEnded = s.inputEnded := rfl
@[simp] theorem State.outEmit_output (b : Byte) (s : State) : (State.outEmit b s).output = s.output ++ [b] := rfl
@[simp] theorem State.outEmit_stepAcks (b : Byte) (s : State) : (State.outEmit b s).stepAcks = s.stepAcks := rfl
@[simp] theorem State.outEmit_trace (b : Byte) (s : State) : (State.outEmit b s).trace = s.trace := rfl
@[simp] theorem State.outEmit_undefPolicy (b : Byte) (s : State) : (State.outEmit b s).undefPolicy = s.undefPolicy := rfl
@[simp] theorem State.outEmit_stepMode (b : Byte) (s : State) : (State.outEmit b s).stepMode = s.stepMode := rfl
@[simp] theorem State.outEmit_traceMode (b : Byte) (s : State) : (State.outEmit b s).traceMode = s.traceMode := rfl
@[simp] theorem State.outEmit_inEofByte (b : Byte) (s : State) : (State.outEmit b s).inEofByte = s.inEofByte := rfl

/-! ### `raiseUndefinedOpcode` -/

@[simp] theorem State.raiseUndefinedOpcode_ac (s : State) : (State.raiseUndefinedOpcode s).ac = s.ac := rfl
@[simp] theorem State.raiseUndefinedOpcode_pc (s : State) : (State.raiseUndefinedOpcode s).pc = s.pc := rfl
@[simp] theorem State.raiseUndefinedOpcode_ir (s : State) : (State.raiseUndefinedOpcode s).ir = s.ir := rfl
@[simp] theorem State.raiseUndefinedOpcode_mar (s : State) : (State.raiseUndefinedOpcode s).mar = s.mar := rfl
@[simp] theorem State.raiseUndefinedOpcode_mbr (s : State) : (State.raiseUndefinedOpcode s).mbr = s.mbr := rfl
@[simp] theorem State.raiseUndefinedOpcode_inReg (s : State) : (State.raiseUndefinedOpcode s).inReg = s.inReg := rfl
@[simp] theorem State.raiseUndefinedOpcode_outReg (s : State) : (State.raiseUndefinedOpcode s).outReg = s.outReg := rfl
@[simp] theorem State.raiseUndefinedOpcode_status (s : State) : (State.raiseUndefinedOpcode s).status = .fault := rfl
@[simp] theorem State.raiseUndefinedOpcode_faultInfo (s : State) : (State.raiseUndefinedOpcode s).faultInfo = some ⟨s.ir, s.mar⟩ := rfl
@[simp] theorem State.raiseUndefinedOpcode_mem (s : State) : (State.raiseUndefinedOpcode s).mem = s.mem := rfl
@[simp] theorem State.raiseUndefinedOpcode_input (s : State) : (State.raiseUndefinedOpcode s).input = s.input := rfl
@[simp] theorem State.raiseUndefinedOpcode_inputEnded (s : State) : (State.raiseUndefinedOpcode s).inputEnded = s.inputEnded := rfl
@[simp] theorem State.raiseUndefinedOpcode_output (s : State) : (State.raiseUndefinedOpcode s).output = s.output := rfl
@[simp] theorem State.raiseUndefinedOpcode_stepAcks (s : State) : (State.raiseUndefinedOpcode s).stepAcks = s.stepAcks := rfl
@[simp] theorem State.raiseUndefinedOpcode_trace (s : State) : (State.raiseUndefinedOpcode s).trace = s.trace := rfl
@[simp] theorem State.raiseUndefinedOpcode_undefPolicy (s : State) : (State.raiseUndefinedOpcode s).undefPolicy = s.undefPolicy := rfl
@[simp] theorem State.raiseUndefinedOpcode_stepMode (s : State) : (State.raiseUndefinedOpcode s).stepMode = s.stepMode := rfl
@[simp] theorem State.raiseUndefinedOpcode_traceMode (s : State) : (State.raiseUndefinedOpcode s).traceMode = s.traceMode := rfl
@[simp] theorem State.raiseUndefinedOpcode_inEofByte (s : State) : (State.raiseUndefinedOpcode s).inEofByte = s.inEofByte := rfl

/-! ### `loadAt` -/

@[simp] theorem State.loadAt_ac (a : Addr) (s : State) : (State.loadAt a s).ac = s.ac := rfl
@[simp] theorem State.loadAt_pc (a : Addr) (s : State) : (State.loadAt a s).pc = s.pc := rfl
@[simp] theorem State.loadAt_ir (a : Addr) (s : State) : (State.loadAt a s).ir = s.ir := rfl
@[simp] theorem State.loadAt_mar (a : Addr) (s : State) : (State.loadAt a s).mar = a := rfl
@[simp] theorem State.loadAt_mbr (a : Addr) (s : State) : (State.loadAt a s).mbr = s.mem.read a := rfl
@[simp] theorem State.loadAt_inReg (a : Addr) (s : State) : (State.loadAt a s).inReg = s.inReg := rfl
@[simp] theorem State.loadAt_outReg (a : Addr) (s : State) : (State.loadAt a s).outReg = s.outReg := rfl
@[simp] theorem State.loadAt_status (a : Addr) (s : State) : (State.loadAt a s).status = s.status := rfl
@[simp] theorem State.loadAt_faultInfo (a : Addr) (s : State) : (State.loadAt a s).faultInfo = s.faultInfo := rfl
@[simp] theorem State.loadAt_mem (a : Addr) (s : State) : (State.loadAt a s).mem = s.mem := rfl
@[simp] theorem State.loadAt_input (a : Addr) (s : State) : (State.loadAt a s).input = s.input := rfl
@[simp] theorem State.loadAt_inputEnded (a : Addr) (s : State) : (State.loadAt a s).inputEnded = s.inputEnded := rfl
@[simp] theorem State.loadAt_output (a : Addr) (s : State) : (State.loadAt a s).output = s.output := rfl
@[simp] theorem State.loadAt_stepAcks (a : Addr) (s : State) : (State.loadAt a s).stepAcks = s.stepAcks := rfl
@[simp] theorem State.loadAt_trace (a : Addr) (s : State) : (State.loadAt a s).trace = s.trace := rfl
@[simp] theorem State.loadAt_undefPolicy (a : Addr) (s : State) : (State.loadAt a s).undefPolicy = s.undefPolicy := rfl
@[simp] theorem State.loadAt_stepMode (a : Addr) (s : State) : (State.loadAt a s).stepMode = s.stepMode := rfl
@[simp] theorem State.loadAt_traceMode (a : Addr) (s : State) : (State.loadAt a s).traceMode = s.traceMode := rfl
@[simp] theorem State.loadAt_inEofByte (a : Addr) (s : State) : (State.loadAt a s).inEofByte = s.inEofByte := rfl

/-! ### `storeAt` -/

@[simp] theorem State.storeAt_ac (a : Addr) (v : Word) (s : State) : (State.storeAt a v s).ac = s.ac := rfl
@[simp] theorem State.storeAt_pc (a : Addr) (v : Word) (s : State) : (State.storeAt a v s).pc = s.pc := rfl
@[simp] theorem State.storeAt_ir (a : Addr) (v : Word) (s : State) : (State.storeAt a v s).ir = s.ir := rfl
@[simp] theorem State.storeAt_mar (a : Addr) (v : Word) (s : State) : (State.storeAt a v s).mar = a := rfl
@[simp] theorem State.storeAt_mbr (a : Addr) (v : Word) (s : State) : (State.storeAt a v s).mbr = v := rfl
@[simp] theorem State.storeAt_inReg (a : Addr) (v : Word) (s : State) : (State.storeAt a v s).inReg = s.inReg := rfl
@[simp] theorem State.storeAt_outReg (a : Addr) (v : Word) (s : State) : (State.storeAt a v s).outReg = s.outReg := rfl
@[simp] theorem State.storeAt_status (a : Addr) (v : Word) (s : State) : (State.storeAt a v s).status = s.status := rfl
@[simp] theorem State.storeAt_faultInfo (a : Addr) (v : Word) (s : State) : (State.storeAt a v s).faultInfo = s.faultInfo := rfl
@[simp] theorem State.storeAt_mem (a : Addr) (v : Word) (s : State) : (State.storeAt a v s).mem = s.mem.write a v := rfl
@[simp] theorem State.storeAt_input (a : Addr) (v : Word) (s : State) : (State.storeAt a v s).input = s.input := rfl
@[simp] theorem State.storeAt_inputEnded (a : Addr) (v : Word) (s : State) : (State.storeAt a v s).inputEnded = s.inputEnded := rfl
@[simp] theorem State.storeAt_output (a : Addr) (v : Word) (s : State) : (State.storeAt a v s).output = s.output := rfl
@[simp] theorem State.storeAt_stepAcks (a : Addr) (v : Word) (s : State) : (State.storeAt a v s).stepAcks = s.stepAcks := rfl
@[simp] theorem State.storeAt_trace (a : Addr) (v : Word) (s : State) : (State.storeAt a v s).trace = s.trace := rfl
@[simp] theorem State.storeAt_undefPolicy (a : Addr) (v : Word) (s : State) : (State.storeAt a v s).undefPolicy = s.undefPolicy := rfl
@[simp] theorem State.storeAt_stepMode (a : Addr) (v : Word) (s : State) : (State.storeAt a v s).stepMode = s.stepMode := rfl
@[simp] theorem State.storeAt_traceMode (a : Addr) (v : Word) (s : State) : (State.storeAt a v s).traceMode = s.traceMode := rfl
@[simp] theorem State.storeAt_inEofByte (a : Addr) (v : Word) (s : State) : (State.storeAt a v s).inEofByte = s.inEofByte := rfl

/-! ### `consumeAck` -/

@[simp] theorem State.consumeAck_ac (s : State) : s.consumeAck.ac = s.ac := by
  unfold State.consumeAck; split <;> rfl
@[simp] theorem State.consumeAck_pc (s : State) : s.consumeAck.pc = s.pc := by
  unfold State.consumeAck; split <;> rfl
@[simp] theorem State.consumeAck_ir (s : State) : s.consumeAck.ir = s.ir := by
  unfold State.consumeAck; split <;> rfl
@[simp] theorem State.consumeAck_mar (s : State) : s.consumeAck.mar = s.mar := by
  unfold State.consumeAck; split <;> rfl
@[simp] theorem State.consumeAck_mbr (s : State) : s.consumeAck.mbr = s.mbr := by
  unfold State.consumeAck; split <;> rfl
@[simp] theorem State.consumeAck_inReg (s : State) : s.consumeAck.inReg = s.inReg := by
  unfold State.consumeAck; split <;> rfl
@[simp] theorem State.consumeAck_outReg (s : State) : s.consumeAck.outReg = s.outReg := by
  unfold State.consumeAck; split <;> rfl
@[simp] theorem State.consumeAck_status (s : State) : s.consumeAck.status = s.status := by
  unfold State.consumeAck; split <;> rfl
@[simp] theorem State.consumeAck_faultInfo (s : State) : s.consumeAck.faultInfo = s.faultInfo := by
  unfold State.consumeAck; split <;> rfl
@[simp] theorem State.consumeAck_mem (s : State) : s.consumeAck.mem = s.mem := by
  unfold State.consumeAck; split <;> rfl
@[simp] theorem State.consumeAck_input (s : State) : s.consumeAck.input = s.input := by
  unfold State.consumeAck; split <;> rfl
@[simp] theorem State.consumeAck_inputEnded (s : State) : s.consumeAck.inputEnded = s.inputEnded := by
  unfold State.consumeAck; split <;> rfl
@[simp] theorem State.consumeAck_output (s : State) : s.consumeAck.output = s.output := by
  unfold State.consumeAck; split <;> rfl
@[simp] theorem State.consumeAck_stepAcks (s : State) : s.consumeAck.stepAcks = if s.stepMode then s.stepAcks - 1 else s.stepAcks := by
  unfold State.consumeAck; split <;> simp_all
@[simp] theorem State.consumeAck_trace (s : State) : s.consumeAck.trace = s.trace := by
  unfold State.consumeAck; split <;> rfl
@[simp] theorem State.consumeAck_undefPolicy (s : State) : s.consumeAck.undefPolicy = s.undefPolicy := by
  unfold State.consumeAck; split <;> rfl
@[simp] theorem State.consumeAck_stepMode (s : State) : s.consumeAck.stepMode = s.stepMode := by
  unfold State.consumeAck; split <;> rfl
@[simp] theorem State.consumeAck_traceMode (s : State) : s.consumeAck.traceMode = s.traceMode := by
  unfold State.consumeAck; split <;> rfl
@[simp] theorem State.consumeAck_inEofByte (s : State) : s.consumeAck.inEofByte = s.inEofByte := by
  unfold State.consumeAck; split <;> rfl

/-! ### `emitTrace` -/

@[simp] theorem State.emitTrace_ac (s : State) : s.emitTrace.ac = s.ac := by
  unfold State.emitTrace; split <;> rfl
@[simp] theorem State.emitTrace_pc (s : State) : s.emitTrace.pc = s.pc := by
  unfold State.emitTrace; split <;> rfl
@[simp] theorem State.emitTrace_ir (s : State) : s.emitTrace.ir = s.ir := by
  unfold State.emitTrace; split <;> rfl
@[simp] theorem State.emitTrace_mar (s : State) : s.emitTrace.mar = s.mar := by
  unfold State.emitTrace; split <;> rfl
@[simp] theorem State.emitTrace_mbr (s : State) : s.emitTrace.mbr = s.mbr := by
  unfold State.emitTrace; split <;> rfl
@[simp] theorem State.emitTrace_inReg (s : State) : s.emitTrace.inReg = s.inReg := by
  unfold State.emitTrace; split <;> rfl
@[simp] theorem State.emitTrace_outReg (s : State) : s.emitTrace.outReg = s.outReg := by
  unfold State.emitTrace; split <;> rfl
@[simp] theorem State.emitTrace_status (s : State) : s.emitTrace.status = s.status := by
  unfold State.emitTrace; split <;> rfl
@[simp] theorem State.emitTrace_faultInfo (s : State) : s.emitTrace.faultInfo = s.faultInfo := by
  unfold State.emitTrace; split <;> rfl
@[simp] theorem State.emitTrace_mem (s : State) : s.emitTrace.mem = s.mem := by
  unfold State.emitTrace; split <;> rfl
@[simp] theorem State.emitTrace_input (s : State) : s.emitTrace.input = s.input := by
  unfold State.emitTrace; split <;> rfl
@[simp] theorem State.emitTrace_inputEnded (s : State) : s.emitTrace.inputEnded = s.inputEnded := by
  unfold State.emitTrace; split <;> rfl
@[simp] theorem State.emitTrace_output (s : State) : s.emitTrace.output = s.output := by
  unfold State.emitTrace; split <;> rfl
@[simp] theorem State.emitTrace_stepAcks (s : State) : s.emitTrace.stepAcks = s.stepAcks := by
  unfold State.emitTrace; split <;> rfl
@[simp] theorem State.emitTrace_trace (s : State) : s.emitTrace.trace = if s.traceMode then s.trace ++ [s.registers] else s.trace := by
  unfold State.emitTrace; split <;> simp_all
@[simp] theorem State.emitTrace_undefPolicy (s : State) : s.emitTrace.undefPolicy = s.undefPolicy := by
  unfold State.emitTrace; split <;> rfl
@[simp] theorem State.emitTrace_stepMode (s : State) : s.emitTrace.stepMode = s.stepMode := by
  unfold State.emitTrace; split <;> rfl
@[simp] theorem State.emitTrace_traceMode (s : State) : s.emitTrace.traceMode = s.traceMode := by
  unfold State.emitTrace; split <;> rfl
@[simp] theorem State.emitTrace_inEofByte (s : State) : s.emitTrace.inEofByte = s.inEofByte := by
  unfold State.emitTrace; split <;> rfl

/-! ### `untraced` -/

@[simp] theorem State.untraced_ac (s : State) : s.untraced.ac = s.ac := rfl
@[simp] theorem State.untraced_pc (s : State) : s.untraced.pc = s.pc := rfl
@[simp] theorem State.untraced_ir (s : State) : s.untraced.ir = s.ir := rfl
@[simp] theorem State.untraced_mar (s : State) : s.untraced.mar = s.mar := rfl
@[simp] theorem State.untraced_mbr (s : State) : s.untraced.mbr = s.mbr := rfl
@[simp] theorem State.untraced_inReg (s : State) : s.untraced.inReg = s.inReg := rfl
@[simp] theorem State.untraced_outReg (s : State) : s.untraced.outReg = s.outReg := rfl
@[simp] theorem State.untraced_status (s : State) : s.untraced.status = s.status := rfl
@[simp] theorem State.untraced_faultInfo (s : State) : s.untraced.faultInfo = s.faultInfo := rfl
@[simp] theorem State.untraced_mem (s : State) : s.untraced.mem = s.mem := rfl
@[simp] theorem State.untraced_input (s : State) : s.untraced.input = s.input := rfl
@[simp] theorem State.untraced_inputEnded (s : State) : s.untraced.inputEnded = s.inputEnded := rfl
@[simp] theorem State.untraced_output (s : State) : s.untraced.output = s.output := rfl
@[simp] theorem State.untraced_stepAcks (s : State) : s.untraced.stepAcks = s.stepAcks := rfl
@[simp] theorem State.untraced_trace (s : State) : s.untraced.trace = [] := rfl
@[simp] theorem State.untraced_undefPolicy (s : State) : s.untraced.undefPolicy = s.undefPolicy := rfl
@[simp] theorem State.untraced_stepMode (s : State) : s.untraced.stepMode = s.stepMode := rfl
@[simp] theorem State.untraced_traceMode (s : State) : s.untraced.traceMode = false := rfl
@[simp] theorem State.untraced_inEofByte (s : State) : s.untraced.inEofByte = s.inEofByte := rfl

end Sys2Proof.Machine
end

