-- ==== Sys2Proof/Laws/Ops.lean ====
section
/-! SUPPORT. One lemma for each shared operation, saying once everything it can do: the operand forms, the streams, the enabling of
a step and the step itself. -/

namespace Sys2Proof.Machine

/-! ### The operand forms -/

/-- A direct read sets `MAR` and `MBR` and nothing else. -/
theorem State.loadDirect_eq (x : Addr) (s : State) : s.loadDirect x = { s with mar := x, mbr := s.mem.read x } := rfl

/-- An indirect read sets `MAR` and `MBR` and nothing else; `MAR` ends at the pointer's target. -/
theorem State.loadIndirect_eq (x : Addr) (s : State) :
    s.loadIndirect x = { s with mar := indirectAddr s.mem x, mbr := s.mem.read (indirectAddr s.mem x) } := rfl

/-- A direct write sets `MAR`, `MBR` and one word of memory, and nothing else. -/
theorem State.storeDirect_eq (x : Addr) (v : Word) (s : State) :
    s.storeDirect x v = { s with mar := x, mbr := v, mem := s.mem.write x v } := rfl

/-- An indirect write sets `MAR`, `MBR` and one word of memory, and nothing else. -/
theorem State.storeIndirect_eq (x : Addr) (v : Word) (s : State) :
    s.storeIndirect x v =
      { s with mar := indirectAddr s.mem x, mbr := v, mem := s.mem.write (indirectAddr s.mem x) v } := rfl

/-! ### The streams -/

/-- All that `InTake` can do: take the next byte; answer `IN_EOF_BYTE` at the end and change nothing; or have nothing to take. -/
theorem State.inTake_cases (s : State) :
    (∃ b rest, s.input = b :: rest ∧ s.inTake = some (b, { s with input := rest })) ∨
    (s.input = [] ∧ s.inputEnded = true ∧ s.inTake = some (s.inEofByte, s)) ∨
    (s.input = [] ∧ s.inputEnded = false ∧ s.inTake = none) := by
  unfold State.inTake
  cases hi : s.input with
  | cons b rest => exact .inl ⟨b, rest, rfl, rfl⟩
  | nil => cases he : s.inputEnded <;> simp

/-- An `Input` is ready exactly when `InTake` has something to answer. -/
theorem State.inputReady_iff (s : State) : s.inputReady = true ↔ s.inTake.isSome = true := by
  rcases s.inTake_cases with ⟨b, rest, hi, ht⟩ | ⟨hi, he, ht⟩ | ⟨hi, he, ht⟩ <;> simp [State.inputReady, *]

/-! ### The step -/

/-- When a step is enabled, in the words of R81. -/
theorem State.enabled_iff (s : State) :
    s.enabled = true ↔ s.status = .run ∧ (s.stepMode = true → 0 < s.stepAcks) ∧
      (opcodeField (s.mem.read s.pc) = 5 → s.input ≠ [] ∨ s.inputEnded = true) := by
  simp [State.enabled, State.gateOpen, State.inputReady, isInputWord, and_assoc, imp_iff_not_or]

/-- The state at the start of the execute phase. -/
theorem State.fetch_consumeAck (s : State) :
    s.consumeAck.fetch = { s with
      mar := s.pc, pc := nextAddr s.pc, ir := s.mem.read s.pc,
      stepAcks := if s.stepMode then s.stepAcks - 1 else s.stepAcks } := by
  unfold State.consumeAck
  split <;> rfl

/-- An enabled step runs the decoded instruction on the fetched state and then records the trace. -/
theorem step_of_enabled {s : State} (h : s.enabled = true) :
    step s = afterExecute (exec (decode (s.mem.read s.pc)) s.consumeAck.fetch) := by
  simp [step, h]

/-- A step that is not enabled changes nothing. -/
theorem step_of_not_enabled {s : State} (h : s.enabled = false) : step s = .next s := by
  simp [step, h]

/-- After an execute phase, the next state is the one it answers, with its trace record. -/
theorem afterExecute_eq_next {o : Host.Outcome State Fault Refusal} {t : State} :
    afterExecute o = .next t ↔ ∃ u, o = .next u ∧ t = u.emitTrace := by
  cases o <;> simp [afterExecute, eq_comm]

/-- All that a step can do: nothing, when it is not enabled; the execute phase of the decoded instruction, when it is. -/
theorem step_cases {s t : State} (h : step s = .next t) :
    (s.enabled = false ∧ t = s) ∨
    (s.enabled = true ∧ ∃ u, exec (decode (s.mem.read s.pc)) s.consumeAck.fetch = .next u ∧ t = u.emitTrace) := by
  cases he : s.enabled with
  | false =>
    rw [step_of_not_enabled he] at h
    cases h
    exact .inl ⟨rfl, rfl⟩
  | true =>
    rw [step_of_enabled he] at h
    exact .inr ⟨rfl, afterExecute_eq_next.1 h⟩

end Sys2Proof.Machine
end

