-- ==== Sys2Proof/Laws/Exec.lean ====
section
/-! SUPPORT. The three execute phases that branch, each as one equation: everything it can do. The other thirteen are record updates
by definition, through the operand lemmas of `Laws/Ops.lean`. -/

namespace Sys2Proof.Machine

/-- `Input` takes what `InTake` answers, or leaves the state alone when there is nothing to take. -/
theorem execInput_eq (s : State) :
    execInput s = .next (match s.inTake with
      | some (b, s1) => { s1 with inReg := b, ac := zextByte b }
      | none => s) := by
  unfold execInput
  cases h : s.inTake <;> simp [State.setAc, State.setInReg]

/-- Opcode 0xF takes the exception under `fatal` and does nothing under `nop`. -/
theorem execUndefined0xF_eq (s : State) :
    execUndefined0xF s = .next (if s.undefPolicy = .fatal then s.raiseUndefinedOpcode else s) := by
  unfold execUndefined0xF
  cases h : s.undefPolicy <;> simp

/-- `Skipcond` changes `PC` or nothing. -/
theorem execSkipcond_eq (x : Addr) (s : State) :
    execSkipcond x s =
      .next { s with pc := if skipCondition (selectorField x) s.ac then nextAddr s.pc else s.pc } := by
  unfold execSkipcond
  split <;> rfl

end Sys2Proof.Machine
end

