-- ==== Sys2Proof/Laws/PerInstr.lean ====
section
/-! SUPPORT. What is said of every instruction as syntax, one lemma per constructor: its word carries its opcode in the top nibble
(family TopNibble) and its operand field in the low 12 bits (family LowField) (R50, R51, R73). -/

namespace Sys2Proof.Laws.TopNibble

/-- The top nibble of the instruction's word is its opcode index. -/
def Statement (i : Instr) : Prop := opcodeField (encode i) = i.opcode

theorem jns (x : Addr) : Statement (.jns x) := opcodeField_wordOf _ _
theorem load (x : Addr) : Statement (.load x) := opcodeField_wordOf _ _
theorem store (x : Addr) : Statement (.store x) := opcodeField_wordOf _ _
theorem add (x : Addr) : Statement (.add x) := opcodeField_wordOf _ _
theorem subt (x : Addr) : Statement (.subt x) := opcodeField_wordOf _ _
theorem input : Statement .input := opcodeField_wordOf _ _
theorem output : Statement .output := opcodeField_wordOf _ _
theorem halt : Statement .halt := opcodeField_wordOf _ _
theorem skipcond (x : Addr) : Statement (.skipcond x) := opcodeField_wordOf _ _
theorem jump (x : Addr) : Statement (.jump x) := opcodeField_wordOf _ _
theorem clear : Statement .clear := opcodeField_wordOf _ _
theorem addi (x : Addr) : Statement (.addi x) := opcodeField_wordOf _ _
theorem jumpi (x : Addr) : Statement (.jumpi x) := opcodeField_wordOf _ _
theorem loadi (x : Addr) : Statement (.loadi x) := opcodeField_wordOf _ _
theorem storei (x : Addr) : Statement (.storei x) := opcodeField_wordOf _ _
theorem undefined0xF (low : Addr) : Statement (.undefined0xF low) := opcodeField_wordOf _ _

end Sys2Proof.Laws.TopNibble

namespace Sys2Proof.Laws.LowField

/-- The low 12 bits of the instruction's word are its operand field, zeros in format N. -/
def Statement (i : Instr) : Prop := operandField (encode i) = i.field

theorem jns (x : Addr) : Statement (.jns x) := operandField_wordOf _ _
theorem load (x : Addr) : Statement (.load x) := operandField_wordOf _ _
theorem store (x : Addr) : Statement (.store x) := operandField_wordOf _ _
theorem add (x : Addr) : Statement (.add x) := operandField_wordOf _ _
theorem subt (x : Addr) : Statement (.subt x) := operandField_wordOf _ _
theorem input : Statement .input := operandField_wordOf _ _
theorem output : Statement .output := operandField_wordOf _ _
theorem halt : Statement .halt := operandField_wordOf _ _
theorem skipcond (x : Addr) : Statement (.skipcond x) := operandField_wordOf _ _
theorem jump (x : Addr) : Statement (.jump x) := operandField_wordOf _ _
theorem clear : Statement .clear := operandField_wordOf _ _
theorem addi (x : Addr) : Statement (.addi x) := operandField_wordOf _ _
theorem jumpi (x : Addr) : Statement (.jumpi x) := operandField_wordOf _ _
theorem loadi (x : Addr) : Statement (.loadi x) := operandField_wordOf _ _
theorem storei (x : Addr) : Statement (.storei x) := operandField_wordOf _ _
theorem undefined0xF (low : Addr) : Statement (.undefined0xF low) := operandField_wordOf _ _

end Sys2Proof.Laws.LowField
end

