-- ==== Sys2Proof/Tests/Slice0.lean ====
section
/-! SUPPORT. The model's own tests. Expected results come from `spec/95_test_vectors.md` (S, V) and the worked steps of the rules; a
`witness_<Obligation>` theorem shows concrete data that meet the hypotheses of the obligation of that name. -/

namespace Sys2Proof.Tests

open Sys2Proof Sys2Proof.Machine

/-! ### Helpers -/

/-- A running state with given `PC`, `AC` and memory. -/
def boot (pc : Addr) (ac : Word) (mem : Memory) : State :=
  { State.reset with pc := pc, ac := ac, mem := mem, inEofByte := 0xE0 }

/-- The next state, where there is one. -/
def stateOf : Host.Outcome State Fault Refusal → Option State
  | .next s => some s
  | .fault _ => none
  | .refused _ => none

/-- `AC`, `PC`, `MAR`, `MBR` after one step. -/
def core4 (s : State) : Option (Word × Addr × Addr × Word) := (stateOf (step s)).map (fun t => (t.ac, t.pc, t.mar, t.mbr))

/-- One word of memory after one step. -/
def wordAfter (s : State) (a : Addr) : Option Word := (stateOf (step s)).map (fun t => t.mem.read a)

/-! ### Well-formedness: an ill-formed term for each check -/

theorem test_undefined_is_no_instruction : (Instr.undefined0xF 0).isInstruction = false := by decide
theorem test_operand_missing : operandFits true none = false := by decide
theorem test_operand_not_taken : operandFits false (some 0) = false := by decide
theorem test_operand_too_large : operandFits true (some 4096) = false := by decide
theorem test_operand_largest : operandFits true (some 4095) = true := by decide
theorem test_name_empty : nameOk 8 [] = false := by decide
theorem test_name_space : nameOk 8 (ascii "A B") = false := by decide
theorem test_name_comma : nameOk 8 (ascii "A,B") = false := by decide
theorem test_name_slash : nameOk 8 (ascii "A/B") = false := by decide
theorem test_name_long : nameOk 2 (ascii "ABC") = false := by decide
theorem test_memory_unsorted : Memory.wf [(2, 1), (1, 1)] = false := by decide
theorem test_memory_lists_default : Memory.wf [(1, 0)] = false := by decide
theorem test_memory_outside : Memory.wf [(4096, 1)] = false := by decide
/-- S9: 4097 words are refused. -/
theorem test_image_too_large : load [] (List.replicate 4097 0) = .error .tooLarge := by
  rw [load, if_neg (by rw [List.length_replicate]; decide)]
theorem test_short_read : loadDeclared [] 2 [1] = .error .shortRead := by rfl
theorem test_decode_nothing : decodeFirst [] = .error .noWord := by rfl

/-! ### Decoding: words written out from the encodings of R51 and R53 -/

theorem test_decode_jns : decode 0b0000000100000110#16 = .jns 0x106 := by decide
theorem test_decode_load : decode 0b0001000100000011#16 = .load 0x103 := by decide
theorem test_decode_store : decode 0b0010000100000110#16 = .store 0x106 := by decide
theorem test_decode_add : decode 0b0011000100000101#16 = .add 0x105 := by decide
theorem test_decode_subt : decode 0b0100000100001101#16 = .subt 0x10D := by decide
theorem test_decode_input : decode 0b0101111111111111#16 = .input := by decide
theorem test_decode_output : decode 0b0110000000000001#16 = .output := by decide
theorem test_decode_halt : decode 0b0111101010111100#16 = .halt := by decide
theorem test_decode_skipcond : decode 0b1000010000000000#16 = .skipcond 0x400 := by decide
theorem test_decode_jump : decode 0b1001000100000010#16 = .jump 0x102 := by decide
theorem test_decode_clear : decode 0b1010111111111111#16 = .clear := by decide
theorem test_decode_addi : decode 0b1011000100000011#16 = .addi 0x103 := by decide
theorem test_decode_jumpi : decode 0b1100000100000110#16 = .jumpi 0x106 := by decide
theorem test_decode_loadi : decode 0b1101000100001101#16 = .loadi 0x10D := by decide
theorem test_decode_storei : decode 0b1110000100001110#16 = .storei 0x10E := by decide
theorem test_decode_undefined : decode 0b1111000000000000#16 = .undefined0xF 0 := by decide
theorem test_encode_storei : encode (.storei 0xFFF) = 0xEFFF#16 := by decide

/-! ### One step -/

/-- S5. -/
theorem test_load : core4 (boot 0x100 0 [(0x100, 0x1103), (0x103, 7)]) = some (7, 0x101, 0x103, 7) := by decide
/-- V6. -/
theorem test_store : wordAfter (boot 0x100 0xBEEF [(0x100, 0x2200)]) 0x200 = some 0xBEEF := by decide
/-- V9: the pointer's high bits are ignored. -/
theorem test_loadi : core4 (boot 0x100 0 [(0x100, 0xD200), (0x105, 0xAA), (0x200, 0xF105)]) =
    some (0xAA, 0x101, 0x105, 0xAA) := by decide
/-- V10: a pointer at itself; the old value is the address. -/
theorem test_storei_self : wordAfter (boot 0x100 0x1234 [(0x100, 0xE200), (0x200, 0x0200)]) 0x200 = some 0x1234 := by decide
/-- V11. -/
theorem test_storei_pointer_kept : wordAfter (boot 0x100 0x48 [(0x100, 0xE200), (0x200, 0x8118)]) 0x200 = some 0x8118 := by decide
/-- V12: overflow wraps. -/
theorem test_add : core4 (boot 0x100 0x7FFF [(0x100, 0x3200), (0x200, 1)]) = some (0x8000, 0x101, 0x200, 1) := by decide
/-- V17. -/
theorem test_subt : core4 (boot 0x100 0x8000 [(0x100, 0x4200), (0x200, 1)]) = some (0x7FFF, 0x101, 0x200, 1) := by decide
/-- V21. -/
theorem test_addi : core4 (boot 0x100 1 [(0x100, 0xB200), (0x200, 0xA300), (0x300, 0xFFFF)]) =
    some (0, 0x101, 0x300, 0xFFFF) := by decide
/-- V1: `PC` wraps. -/
theorem test_clear : core4 (boot 0xFFF 0x1234 [(0xFFF, 0xA000)]) = some (0, 0x000, 0xFFF, 0) := by decide
/-- V24: `X + 1` wraps. -/
theorem test_jns : core4 (boot 0x100 0x15 [(0x100, 0x0FFF)]) = some (0x15, 0x000, 0xFFF, 0x101) := by decide
/-- V25: the return address wraps. -/
theorem test_jns_slot : wordAfter (boot 0xFFF 0x15 [(0x200, 0xBAD), (0xFFF, 0x0200)]) 0x200 = some 0x0000 := by decide
/-- R121, worked step. -/
theorem test_jump : core4 (boot 0x109 5 [(0x109, 0x9102)]) = some (5, 0x102, 0x109, 0) := by decide
/-- V33. -/
theorem test_jumpi : core4 (boot 0x100 5 [(0x100, 0xC200), (0x200, 0xF102)]) = some (5, 0x102, 0x200, 0xF102) := by decide
/-- V30a, V30b, V30c, V29: the skips at `AC = 8000, FFFF, 0000, 0001, 7FFF` of each selector. -/
theorem test_skipcond :
    [0x8000, 0x8400, 0x8800, 0x8C00].map (fun w : Word =>
      [0x8000, 0xFFFF, 0x0000, 0x0001, 0x7FFF].map (fun ac : Word => (core4 (boot 0x108 ac [(0x108, w)])).map (·.2.1))) =
    [[some 0x10A, some 0x10A, some 0x109, some 0x109, some 0x109], [some 0x109, some 0x109, some 0x10A, some 0x109, some 0x109],
     [some 0x109, some 0x109, some 0x109, some 0x10A, some 0x10A],
     [some 0x109, some 0x109, some 0x109, some 0x109, some 0x109]] := by decide
/-- V32b: a taken skip wraps. -/
theorem test_skipcond_wraps : core4 (boot 0xFFF 0 [(0xFFF, 0x8400)]) = some (0, 0x001, 0xFFF, 0) := by decide
/-- V41: zero extension; the byte is consumed. -/
theorem test_input : (stateOf (step { boot 0x100 0xFFFF [(0x100, 0x5FFF)] with input := [0xE9, 0x01] })).map
    (fun t => (t.ac, t.inReg, t.input, t.pc)) = some (0x00E9, 0xE9, [0x01], 0x101) := by decide
/-- V42, with `e = E0`. -/
theorem test_input_ended : (stateOf (step { boot 0x100 0xFFFF [(0x100, 0x5000)] with inputEnded := true })).map
    (fun t => (t.ac, t.inReg, t.status)) = some (0x00E0, 0xE0, .run) := by decide
/-- V47: held; no step, state unchanged. -/
theorem test_input_held : stateOf (step (boot 0x100 5 [(0x100, 0x5000)])) = some (boot 0x100 5 [(0x100, 0x5000)]) := by decide
/-- V43. -/
theorem test_output : (stateOf (step { boot 0x100 0x0141 [(0x100, 0x6000)] with output := [0x40] })).map
    (fun t => (t.outReg, t.output, t.ac)) = some (0x41, [0x40, 0x41], 0x0141) := by decide
/-- S7, V46. -/
theorem test_halt : (stateOf (step (boot 0x103 0xC [(0x103, 0x7000)]))).map (fun t => (t.status, t.pc, t.ir, t.mar, t.ac)) =
    some (.halted, 0x104, 0x7000, 0x103, 0xC) := by decide
/-- V44: policy `fatal`. -/
theorem test_undefined_fatal : (stateOf (step (boot 0x100 7 [(0x100, 0xF000)]))).map
    (fun t => (t.status, t.faultInfo, t.pc, t.ir, t.ac)) = some (.fault, some ⟨0xF000, 0x100⟩, 0x101, 0xF000, 7) := by decide
/-- V45, first step: policy `nop`. -/
theorem test_undefined_nop : (stateOf (step { boot 0x100 7 [(0x100, 0xF000)] with undefPolicy := .nop })).map
    (fun t => (t.status, t.faultInfo, t.pc, t.ir, t.mar)) = some (.run, none, 0x101, 0xF000, 0x100) := by decide
/-- R178: a step in step mode consumes its token. -/
theorem test_step_mode : (stateOf (step { boot 0x100 7 [(0x100, 0xA000)] with stepMode := true, stepAcks := 2 })).map
    (fun t => (t.stepAcks, t.ac)) = some (1, 0) := by decide
/-- R179: the halting step is traced. -/
theorem test_trace : (stateOf (step { boot 0x103 0xC [(0x103, 0x7000)] with traceMode := true })).map (·.trace) =
    some [⟨0xC, 0x7000, 0, 0x104, 0x103, 0, 0⟩] := by decide

/-! ### The matcher: V50 to V58 -/

/-- The table of program P2 after `FINALISE`. -/
def p2Table : List Symbol :=
  [⟨ascii "Ctr", 0x10C⟩, ⟨ascii "Loop", 0x102⟩, ⟨ascii "One", 0x10D⟩, ⟨ascii "Sum", 0x10E⟩]

theorem test_finalise : sortSymbols [⟨ascii "Loop", 0x102⟩, ⟨ascii "Ctr", 0x10C⟩, ⟨ascii "One", 0x10D⟩, ⟨ascii "Sum", 0x10E⟩] =
    p2Table := by decide
/-- V50. -/
theorem test_lookup_found : binarySearch p2Table (ascii "One") = ⟨some 0x10D, [⟨0, 3, 1⟩, ⟨2, 3, 2⟩]⟩ := by decide
/-- V54. -/
theorem test_lookup_absent : binarySearch p2Table (ascii "400") = ⟨none, [⟨0, 3, 1⟩, ⟨0, 0, 0⟩]⟩ := by decide
/-- V56. -/
theorem test_lookup_prefix : binarySearch p2Table (ascii "Su") = ⟨none, [⟨0, 3, 1⟩, ⟨2, 3, 2⟩, ⟨3, 3, 3⟩]⟩ := by decide
/-- V57. -/
theorem test_lookup_empty : binarySearch [] (ascii "X") = ⟨none, []⟩ := by decide
/-- V58. -/
theorem test_name_order : (sortSymbols [⟨ascii "x", 0⟩, ⟨ascii "Xa", 1⟩, ⟨ascii "X", 2⟩]).map (·.address) = [2, 1, 0] := by decide
/-- V59. -/
theorem test_insert_duplicate : SymbolTable.insert 8 ⟨p2Table, .collecting⟩ (ascii "Sum") 0x200 = .error .duplicate := by rfl
/-- R155: `INSERT` after `FINALISE`. -/
theorem test_insert_phase : SymbolTable.insert 8 ⟨p2Table, .final⟩ (ascii "Sum2") 0x200 = .error .wrongPhase := by rfl

/-! ### The assembler -/

/-- What an assembly gives, with its images' words from an address on. -/
def wordsFrom (n : Nat) (r : Except AsmError (List Word)) : Option (List Word) × Option AsmError :=
  match r with
  | .ok ws => (some (ws.drop n), none)
  | .error e => (none, some e)

/-- S2 and V60, without the 256 leading words of `ORG 100`: a forward reference; the label `A` shadows the literal. -/
theorem test_forward_reference : wordsFrom 0 (assemble 8 (ascii "Load A\nHalt\nA, Hex 5")) =
    (some [0x1002, 0x7000, 0x0005], none) := by decide
/-- V61, V62: no symbol, so a literal; empty and comment lines take no address. -/
theorem test_literal_and_comments : wordsFrom 0 (assemble 8 (ascii "Load 0xA / c\n\n  / only\nHalt\nEND\nBogus line")) =
    (some [0x100A, 0x7000], none) := by decide
/-- V66. -/
theorem test_literals : wordsFrom 0 (assemble 8 (ascii "Dec -23\nDec 65535\nDec -32768\nHex FFFF\nHex 0x1f")) =
    (some [0xFFE9, 0xFFFF, 0x8000, 0xFFFF, 0x001F], none) := by decide
/-- V68, at address 1: the gap is zero-filled. -/
theorem test_org_gap : wordsFrom 0 (assemble 8 (ascii "Halt\nORG 3\nHex 1")) = (some [0x7000, 0, 0, 1], none) := by decide
/-- S4, at smaller addresses. -/
theorem test_org_backward : wordsFrom 0 (assemble 8 (ascii "ORG 2\nHalt\nORG 1")) = (none, some (.orgBackward 3)) := by decide
/-- V63. -/
theorem test_unrecognized : wordsFrom 0 (assemble 8 (ascii "load X")) =
    (none, some (.unrecognizedMnemonic 1 (ascii "load X"))) := by decide
/-- V64. -/
theorem test_missing_operand : wordsFrom 0 (assemble 8 (ascii "Load")) = (none, some (.missingOperand 1)) := by decide
/-- V67, the second `Halt`. -/
theorem test_address_exceeds : wordsFrom 0 (assemble 8 (ascii "ORG FFF\nHalt\nHalt")) =
    (none, some (.addressExceeds 3)) := by decide
/-- V69. -/
theorem test_operand_too_large_in_source : wordsFrom 0 (assemble 8 (ascii "Jump 1000")) =
    (none, some (.badOperand 0)) := by decide
/-- V70. -/
theorem test_second_comma : wordsFrom 0 (assemble 8 (ascii "X, Y, Halt")) =
    (none, some (.unrecognizedMnemonic 1 (ascii " Y, Halt"))) := by decide

/-! ### Witnesses: data that meet the hypotheses of the obligations -/

theorem witness_MnemonicsEncodeAndDecodeBack :
    (⟨"Load", 0x1, .a, true, 0x1000, 0xF000⟩ : OpcodeRow) ∈ instructionRows ∧ 0xFFF ≤ 0xFFF ∧ 0xFFF < 0x1000 ∧
    (⟨"Halt", 0x7, .n, false, 0x7000, 0xF000⟩ : OpcodeRow) ∈ instructionRows := by decide

theorem witness_IgnoredBitsHaveNoEffect :
    (opcodeField 0x7000#16 = opcodeField 0x7ABC#16 ∧ opcodeField 0x7000#16 = 7) ∧
    (opcodeField 0x8400#16 = opcodeField 0x87FF#16 ∧ opcodeField 0x8400#16 = 8 ∧
      (0x8400#16).extractLsb' 10 2 = (0x87FF#16).extractLsb' 10 2) := by decide

/-- An enabled state about to run `Load 103`, and what one step of it gives. -/
def loading : State := boot 0x100 0 [(0x100, 0x1103), (0x103, 7)]

theorem witness_StepRunsTheDecodedInstruction :
    loading.enabled = true ∧ decode (loading.mem.read loading.pc) = .load 0x103 := by decide

theorem witness_StepIsHeldExactlyOutsideItsConditions :
    (boot 0x100 0 [(0x100, 0x5000)]).enabled = false ∧ { loading with status := .halted }.enabled = false ∧
    { loading with stepMode := true }.enabled = false := by decide

theorem witness_EnabledStepEndsInRunHaltedOrFault :
    ((boot 0x100 0 [(0x100, 0x7000)]).enabled = true ∧ opcodeField 0x7000#16 = 7) ∧
    ((boot 0x100 0 [(0x100, 0xFFFF)]).enabled = true ∧ opcodeField 0xFFFF#16 = 0xF ∧
      (boot 0x100 0 [(0x100, 0xFFFF)]).undefPolicy = .fatal) ∧
    (loading.enabled = true ∧ opcodeField 0x1103#16 ≠ 7 ∧ opcodeField 0x1103#16 ≠ 0xF) := by decide

theorem witness_HaltedAndFaultAreAbsorbing :
    State.over { loading with status := .halted } ∧ State.over { loading with status := .fault } := ⟨.inl rfl, .inr rfl⟩

theorem witness_UndefinedOpcodeIsTheOnlyException :
    (boot 0x100 7 [(0x100, 0xF000)]).enabled = true ∧
    ∃ t, step (boot 0x100 7 [(0x100, 0xF000)]) = .next t ∧ t.status = .fault := ⟨by decide, _, rfl, rfl⟩

theorem witness_EachRegisterHasItsListedWriters :
    (boot 0x100 7 [(0x100, 0x9100)]).enabled = true ∧ (∃ t, step (boot 0x100 7 [(0x100, 0x9100)]) = .next t) ∧
    opcodeField 0x9100#16 ∉ [0x1#4, 0x3, 0x4, 0x5, 0xA, 0xB, 0xD] ∧ opcodeField 0x9100#16 ≠ 0x5 ∧
    opcodeField 0x9100#16 ≠ 0x6 := ⟨by decide, ⟨_, rfl⟩, by decide, by decide, by decide⟩

theorem witness_PcAdvancesByOneOutsideControlTransfer :
    (loading.enabled = true ∧ (∃ t, step loading = .next t) ∧ opcodeField 0x1103#16 ∉ [0x0#4, 0x8, 0x9, 0xC]) ∧
    ((boot 0xFFF 0 [(0xFFF, 0x8400)]).enabled = true ∧ (∃ t, step (boot 0xFFF 0 [(0xFFF, 0x8400)]) = .next t) ∧
      opcodeField 0x8400#16 = 0x8) :=
  ⟨⟨by decide, ⟨_, rfl⟩, by decide⟩, ⟨by decide, ⟨_, rfl⟩, by decide⟩⟩

theorem witness_MemoryChangesOnlyWhereTheTableSays :
    (∃ t, exec (.store 0x200) loading = .next t) ∧ dataWrite (.store 0x200) loading.mem ≠ some 0x201 ∧
    (∃ t, exec (.load 0x103) loading = .next t) ∧ dataWrite (.load 0x103) loading.mem = none :=
  ⟨⟨_, rfl⟩, by decide, ⟨_, rfl⟩, by decide⟩

theorem witness_EffectsDependOnlyOnTheListedReads :
    (∀ a ∈ dataReads (.addi 0x103) loading.mem, Memory.read [(0x103, 7), (0x300, 5)] a = loading.mem.read a) ∧
    ∃ t, exec (.addi 0x103) loading = .next t := ⟨by decide, _, rfl⟩

theorem witness_MarAndMbrEndAsTheTableSays : ∃ t, exec (.storei 0x103) loading = .next t := ⟨_, rfl⟩

theorem witness_ListedEffectsIgnoreOldScratchRegisters : loading.enabled = true ∧ ∃ t, step loading = .next t :=
  ⟨by decide, _, rfl⟩

theorem witness_TracingHasNoEffectOnExecution :
    ∃ t, Host.Core.run Sys2Proof.core 2 { loading with traceMode := true } = .next t := ⟨_, rfl⟩

theorem witness_EachCompletedStepEmitsOneTraceRecord : ∃ t, step { loading with traceMode := true } = .next t := ⟨_, rfl⟩

theorem witness_StepModeOnlyGatesTheStep :
    loading.enabled = true ∧ loading.stepMode = false ∧ ∃ t, step loading = .next t := ⟨by decide, rfl, _, rfl⟩

theorem witness_EventsCommuteWithEnabledSteps :
    { boot 0x100 0 [(0x100, 0x5000)] with input := [0x41] }.enabled = true ∧
    ∃ t, step { boot 0x100 0 [(0x100, 0x5000)] with input := [0x41] } = .next t := ⟨by decide, _, rfl⟩

theorem witness_EventsTouchOnlyStreamsAndParametersAreFixed :
    { loading with inputEnded := true }.inputEnded = true ∧ ∃ t, step loading = .next t ∧ Reaches loading t :=
  ⟨rfl, _, rfl, .step .here rfl⟩

theorem witness_CanonicalMemoryIsKeptAndUnique : loading.mem.wf = true ∧ ∀ a : Addr, loading.mem.read a = loading.mem.read a :=
  ⟨by decide, fun _ => rfl⟩

/-- `Store 101`, `StoreI 200` with a pointer to 101, and `JnS 101`, each at 100; after the stores the next word is the stored one. -/
theorem witness_AStoreIsSeenByTheNextFetch :
    (let s := boot 0x100 0x7000 [(0x100, 0x2101)]
     s.enabled = true ∧ dataWrite (decode (s.mem.read s.pc)) s.mem = some 0x101 ∧
      ∃ t, step s = .next t ∧ t.pc = 0x101 ∧ t.enabled = true ∧ ∃ u, step t = .next u) ∧
    (let s := boot 0x100 0x7000 [(0x100, 0xE200), (0x200, 0xF101)]
     s.enabled = true ∧ dataWrite (decode (s.mem.read s.pc)) s.mem = some 0x101 ∧
      ∃ t, step s = .next t ∧ t.pc = 0x101 ∧ t.enabled = true ∧ ∃ u, step t = .next u) ∧
    (let s := boot 0x100 0x7000 [(0x100, 0x0101)]
     s.enabled = true ∧ dataWrite (decode (s.mem.read s.pc)) s.mem = some 0x101 ∧
      ∃ t, step s = .next t ∧ t.pc = 0x102 ∧ t.enabled = true ∧ ∃ u, step t = .next u) :=
  ⟨⟨by decide, by decide, _, rfl, by decide, by decide, _, rfl⟩, ⟨by decide, by decide, _, rfl, by decide, by decide, _, rfl⟩,
    ⟨by decide, by decide, _, rfl, by decide, by decide, _, rfl⟩⟩

theorem witness_StepsAndEventsKeepTheInvariant : loading.Invariant ∧ ∃ t, step loading = .next t :=
  ⟨⟨by decide, by decide, by simp [loading, boot, State.reset], by simp [loading, boot, State.reset]⟩, _, rfl⟩

theorem witness_ResetMeetsTheInvariant : Memory.wf [(0x100, 0x7000)] = true := by decide

theorem witness_RunsUnderPolicyNopAreSafe :
    { loading with undefPolicy := .nop }.undefPolicy = .nop ∧ { loading with undefPolicy := .nop }.status ≠ .fault := by decide

theorem witness_LoadsFillTheAccumulator : (0x007 : Addr) = (loading.mem.read 0x103).setWidth 12 := by decide

theorem witness_AdditionsAndSubtractionUpdateTheAccumulator : (0x007 : Addr) = (loading.mem.read 0x103).setWidth 12 := by decide

theorem witness_ArithmeticWrapsModulo65536 :
    (32767#16).toInt + (0#16).toInt = 32767 ∧ (0x7FFF#16).toInt + (1#16).toInt > 32767 ∧
    (0x8000#16).toInt + (0xFFFF#16).toInt < -32768 ∧ (0x8000#16).toInt - (0#16).toInt = -32768 ∧
    (0x7FFF#16).toInt - (0xFFFF#16).toInt > 32767 ∧ (0x8000#16).toInt - (1#16).toInt < -32768 := by decide

theorem witness_SkipcondSkipsOnItsCondition :
    ((0x400#12).extractLsb' 10 2 = 1 ∧ (boot 0x108 0 []).ac = 0) ∧ ((0x000#12).extractLsb' 10 2 = 0 ∧ (0x8000#16).toInt < 0) ∧
    ((0x800#12).extractLsb' 10 2 = 2 ∧ 0 < (0x7FFF#16).toInt) ∧ (0xC00#12).extractLsb' 10 2 = 3 := by decide

theorem witness_InputLatchesTheNextByte :
    { loading with input := [0xE9] }.input = 0xE9 :: [] ∧
    { loading with inputEnded := true }.input = [] ∧ { loading with inputEnded := true }.inputEnded = true := by decide

theorem witness_InputWaitsForItsByte :
    (boot 0x100 5 [(0x100, 0x5000)]).status = .run ∧ (boot 0x100 5 [(0x100, 0x5000)]).stepMode = false ∧
    opcodeField ((boot 0x100 5 [(0x100, 0x5000)]).mem.read 0x100) = 5 ∧ (boot 0x100 5 [(0x100, 0x5000)]).input = [] ∧
    (boot 0x100 5 [(0x100, 0x5000)]).inputEnded = false := by decide

theorem witness_UndefinedOpcodeFollowsThePolicy :
    loading.undefPolicy = .fatal ∧ { loading with undefPolicy := .nop }.undefPolicy = .nop := by decide

theorem witness_ASubroutineReturnsBehindItsCall :
    (boot 0x101 0x15 [(0x101, 0x0106)]).enabled = true ∧
    (boot 0x101 0x15 [(0x101, 0x0106)]).mem.read 0x101 = encode (.jns 0x106) ∧
    (boot 0x108 0x2A [(0x106, 0x0102), (0x108, 0xC106)]).enabled = true ∧
    (boot 0x108 0x2A [(0x106, 0x0102), (0x108, 0xC106)]).mem.read 0x108 = encode (.jumpi 0x106) ∧
    wordAfter (boot 0x101 0x15 [(0x101, 0x0106)]) 0x106 =
      some ((boot 0x108 0x2A [(0x106, 0x0102), (0x108, 0xC106)]).mem.read 0x106) ∧
    ∃ v, step (boot 0x108 0x2A [(0x106, 0x0102), (0x108, 0xC106)]) = .next v :=
  ⟨by decide, by decide, by decide, by decide, by decide, _, rfl⟩

theorem witness_ResetLeavesWhatTheSpecGives :
    ∃ s, start ⟨1, 2, 3, 4, 5, 6⟩ ⟨.fatal, false, false, 0⟩ [] [0x7000] [0x41] false = .ok s := ⟨_, rfl⟩

theorem witness_LoadPlacesTheImageFromZeroUpward :
    4096 < (List.replicate 4097 (0 : Word)).length ∧ ([0x7000] : List Word).length ≤ 4096 ∧ Memory.wf [] = true := by
  rw [List.length_replicate]; decide

theorem witness_ImageFilesHoldTheirWords :
    ([0x41] : List Byte).length % 2 = 1 ∧ ([0x41, 0x42] : List Byte).length % 2 = 0 := by decide

/-- At the reset state itself for a word that is no `Input`, and with a byte there for one that is. -/
theorem witness_PlacedWordRunsNext :
    0xFFFF < 65536 ∧ State.reset.status = .run ∧ State.reset.faultInfo = none ∧ State.reset.stepMode = false ∧
    isInputWord (BitVec.ofNat 16 0xFFFF) = false ∧ isInputWord (BitVec.ofNat 16 0x5000) = true ∧
    { State.reset with input := [0x41] }.inputReady = true := by decide

theorem witness_NameOrderIsAStrictTotalOrder :
    compareNames (ascii "X") (ascii "Xa") = .lt ∧ compareNames (ascii "Xa") (ascii "x") = .lt := by decide

theorem witness_InsertAppendsANewSymbolOrRefuses :
    (∃ t', SymbolTable.insert 8 ⟨p2Table, .collecting⟩ (ascii "Sum2") 0x200 = .ok t') ∧
    SymbolTable.Invariant ⟨p2Table, .collecting⟩ := ⟨⟨_, rfl⟩, by decide, by decide, by decide⟩

theorem witness_FinaliseSortsTheTable :
    SymbolTable.Invariant ⟨p2Table, .collecting⟩ ∧ ∃ t', SymbolTable.finalise ⟨p2Table, .collecting⟩ = .ok t' :=
  ⟨⟨by decide, by decide, by decide⟩, _, rfl⟩

theorem witness_BinarySearchMeetsItsContract : SortedByName p2Table := by decide

theorem witness_BinarySearchHalvesItsRange : p2Table ≠ [] := by decide

theorem witness_LookupIsTheMapOfTheInsertions :
    SymbolTable.Invariant ⟨p2Table, .collecting⟩ ∧ ∃ t', SymbolTable.finalise ⟨p2Table, .collecting⟩ = .ok t' :=
  witness_FinaliseSortsTheTable

theorem witness_PatchingAssignsTheOperandField :
    Memory.read [(0x100, 0x1000)] 0x100 = wordOf 0x1 0 ∧ (0x101 : Addr) ≠ 0x100 := by decide

theorem witness_SymbolsShadowLiterals :
    SymbolTable.Invariant ⟨[⟨ascii "A", 0x102⟩], .final⟩ ∧ (⟨ascii "A", 0x102⟩ : Symbol) ∈ [(⟨ascii "A", 0x102⟩ : Symbol)] ∧
    ascii "B" ∉ [ascii "A"] ∧ hexValue (ascii "B") = some 0xB ∧ hexValue (ascii "1000") = some 0x1000 ∧
    hexValue (ascii "Zed") = none := ⟨⟨by decide, by decide, by decide⟩, by decide, by decide, by decide, by decide, by decide⟩

theorem witness_PendingOperandsPatchDistinctWords :
    ∃ sc, scanLines 8 1 [ascii "Load X", ascii "Add X", ascii "X, Hex 5"] Scan.start = .ok sc := ⟨_, rfl⟩

theorem witness_AssembledImagesCanBeLoaded : ∃ image, assemble 8 (ascii "Load A\nHalt\nA, Hex 5") = .ok image := ⟨_, rfl⟩

/-- S1 on one program: two instructions, printed and assembled. -/
theorem witness_AssemblingThenDecodingRecoversTheProgram :
    [Instr.load 0xADD, .halt].length ≤ 4096 ∧ (∀ i ∈ [Instr.load 0xADD, .halt], i.isInstruction = true) ∧
    wordsFrom 0 (assemble 8 (sourceText [.load 0xADD, .halt])) = (some [0x1ADD, 0x7000], none) := by decide

end Sys2Proof.Tests
end

namespace Sys2Proof.Machine

/-! ### Memory -/

/-- Settles O24 (R30): the address read is the one written, or it is another one; each case is a rule of `Laws/Memory`. -/
theorem readAfterWriteChangesOneWord : Obligations.ReadAfterWriteChangesOneWord := by
  unfold Obligations.ReadAfterWriteChangesOneWord
  intro m a b v
  split
  case isTrue h =>
    subst h
    exact m.read_write_same b v
  case isFalse h =>
    exact m.read_write_other v h

end Sys2Proof.Machine

namespace Sys2Proof

/-! ### The instruction an opcode selects, and the words of the mnemonics (R53, R73) -/

/-- The instruction selected by an opcode value has that opcode (R53). -/
theorem opcode_instrOf (op : Opcode) (x : Addr) : (instrOf op x).opcode = op := by
  obtain ⟨⟨n, hn⟩⟩ := op
  interval_cases n <;> rfl

/-- The selected instruction carries the operand field, except under the opcodes of format N (R51, R55). -/
theorem field_instrOf (op : Opcode) (x : Addr) :
    (instrOf op x).field = if op ∈ [0x5#4, 0x6, 0x7, 0xA] then 0 else x := by
  obtain ⟨⟨n, hn⟩⟩ := op
  interval_cases n <;> rfl

/-- Opcode 15 alone selects no instruction of the set (R52, R56). -/
theorem isInstruction_instrOf (op : Opcode) (x : Addr) : (instrOf op x).isInstruction = decide (op ≠ 0xF) := by
  obtain ⟨⟨n, hn⟩⟩ := op
  interval_cases n <;> rfl

/-- No mnemonic stands for the undefined opcode (R56). -/
theorem opcode_ne_undefined_of_mem : ∀ row ∈ instructionRows, row.opcode ≠ 0xF := by decide

/-- A mnemonic with an operand has no opcode of format N (R53). -/
theorem opcode_notMem_formatN_of_takesOperand :
    ∀ row ∈ instructionRows, row.takesOperand = true → row.opcode ∉ [0x5#4, 0x6, 0x7, 0xA] := by decide

/-- The operand field goes into the zero low bits by `OR`. -/
theorem wordOf_eq_wordOf_zero_or (op : Opcode) {x : Nat} (h : x ≤ 0xFFF) :
    wordOf op (BitVec.ofNat 12 x) = wordOf op 0 ||| BitVec.ofNat 16 x := by
  have hx : (BitVec.ofNat 12 x).setWidth 16 = BitVec.ofNat 16 x := by
    apply BitVec.eq_of_toNat_eq
    simp only [BitVec.toNat_setWidth, BitVec.toNat_ofNat]
    omega
  simp [wordOf, hx]

/-- What a mnemonic with an operand encodes: the numbers of 12 bits, and no other. -/
theorem encodeRow_some {row : OpcodeRow} (h : row.takesOperand = true) (x : Nat) :
    encodeRow row (some x) = if x ≤ 0xFFF then some (wordOf row.opcode (BitVec.ofNat 12 x)) else none := by
  simp [encodeRow, operandFits, h]

/-- What a mnemonic without an operand encodes. -/
theorem encodeRow_none {row : OpcodeRow} (h : row.takesOperand = false) :
    encodeRow row none = some (wordOf row.opcode 0) := by
  simp [encodeRow, operandFits, h]

/-- A mnemonic's word decodes to an instruction of the set with the mnemonic's opcode. -/
theorem decode_wordOf_of_mem {row : OpcodeRow} (hrow : row ∈ instructionRows) (x : Addr) :
    (decode (wordOf row.opcode x)).opcode = row.opcode ∧
    (decode (wordOf row.opcode x)).isInstruction = true := by
  rw [decode_wordOf, isInstruction_instrOf]
  exact ⟨opcode_instrOf _ _, decide_eq_true (opcode_ne_undefined_of_mem row hrow)⟩

/-- The word of a mnemonic with an operand decodes to an instruction with that operand. -/
theorem field_decode_wordOf {row : OpcodeRow} (hrow : row ∈ instructionRows) (h : row.takesOperand = true) (x : Addr) :
    (decode (wordOf row.opcode x)).field = x := by
  rw [decode_wordOf, field_instrOf, if_neg (opcode_notMem_formatN_of_takesOperand row hrow h)]

/-- Settles O2 (R73): a mnemonic's word is `wordOf` of its opcode and operand, whose value and decoding are those of its two
fields. The rows of R53 give the rest: their opcodes are not 15, and those with an operand are not of format N. -/
theorem mnemonicsEncodeAndDecodeBack : Obligations.MnemonicsEncodeAndDecodeBack := by
  unfold Obligations.MnemonicsEncodeAndDecodeBack
  intro row hrow
  refine ⟨fun htakes x => ⟨fun hx => ?fits, fun hx => ?tooLarge⟩, fun htakes => ?noOperand⟩
  case fits =>
    have hval : (BitVec.ofNat 12 x).toNat = x := by
      rw [BitVec.toNat_ofNat, Nat.mod_eq_of_lt (by omega)]
    obtain ⟨hop, hinstr⟩ := decode_wordOf_of_mem hrow (BitVec.ofNat 12 x)
    refine ⟨wordOf row.opcode (BitVec.ofNat 12 x), ?_, ?_, wordOf_eq_wordOf_zero_or _ hx, hop, ?_, hinstr⟩
    · rw [encodeRow_some htakes, if_pos hx]
    · rw [wordOf_toNat, hval]
    · rw [field_decode_wordOf hrow htakes, hval]
  case tooLarge =>
    rw [encodeRow_some htakes, if_neg (by omega)]
  case noOperand =>
    refine ⟨wordOf row.opcode 0, encodeRow_none htakes, ?_, decode_wordOf_of_mem hrow 0⟩
    simp [wordOf_toNat]

end Sys2Proof

namespace Sys2Proof.Machine

/-! ### The step engine -/

/-- Settles O7 (R80, R178): an enabled step runs the decoded instruction in the fetched state (`step_of_enabled`), and
`State.fetch_consumeAck` says what the fetch and the acknowledgement make of the state. -/
theorem stepRunsTheDecodedInstruction : Obligations.StepRunsTheDecodedInstruction := by
  unfold Obligations.StepRunsTheDecodedInstruction
  intro s i henabled hdecode
  rw [step_of_enabled henabled, hdecode, State.fetch_consumeAck, nextAddr]

end Sys2Proof.Machine

namespace Sys2Proof.Machine

/-! ### The loads and the stores (R100 to R103, R120) -/

/-- `Load X` changes `MAR`, `MBR` and `AC` (R100). -/
theorem exec_load (x : Addr) (s : State) :
    exec (.load x) s = .next { s with mar := x, mbr := s.mem.read x, ac := s.mem.read x } := by
  simp only [exec, execLoad, State.loadDirect_eq, State.setAc]

/-- `LoadI X` changes the same registers, by the word the pointer addresses (R102). -/
theorem exec_loadi (x : Addr) (s : State) :
    exec (.loadi x) s = .next { s with
      mar := indirectAddr s.mem x, mbr := s.mem.read (indirectAddr s.mem x), ac := s.mem.read (indirectAddr s.mem x) } := by
  simp only [exec, execLoadI, State.loadIndirect_eq, State.setAc]

/-- `Store X` changes `MAR`, `MBR` and the word at `X` (R101). -/
theorem exec_store (x : Addr) (s : State) :
    exec (.store x) s = .next { s with mar := x, mbr := s.ac, mem := s.mem.write x s.ac } := by
  simp only [exec, execStore, State.storeDirect_eq]

/-- `StoreI X` changes `MAR`, `MBR` and the word at the pointer's old target (R103). -/
theorem exec_storei (x : Addr) (s : State) :
    exec (.storei x) s = .next { s with
      mar := indirectAddr s.mem x, mbr := s.ac, mem := s.mem.write (indirectAddr s.mem x) s.ac } := by
  simp only [exec, execStoreI, State.storeIndirect_eq]

/-- `JnS X` changes `MAR`, `MBR`, the word at `X` and `PC`; `AC` keeps its value (R120, D8). -/
theorem exec_jns (x : Addr) (s : State) :
    exec (.jns x) s = .next { s with
      mar := x, mbr := zextAddr s.pc, mem := s.mem.write x (zextAddr s.pc), pc := nextAddr x } := by
  simp only [exec, execJnS, State.setMbr, State.setMar, State.writeMbr, State.setPc]

/-- The instructions with an entry in column "writes" of R34, and their addresses. -/
theorem dataWrite_eq_some {i : Instr} {m : Memory} {a : Addr} (h : dataWrite i m = some a) :
    i = .jns a ∨ i = .store a ∨ ∃ x, i = .storei x ∧ a = indirectAddr m x := by
  cases i with
  | jns x => cases h; exact .inl rfl
  | store x => cases h; exact .inr (.inl rfl)
  | storei x => cases h; exact .inr (.inr ⟨x, rfl, rfl⟩)
  | _ => cases h

/-- What an instruction that writes the address `a` does: `AC` stays, one word is written, and that word and `PC` are those of
`JnS`, or `AC` and the `PC` of the fetch. -/
theorem exec_of_dataWrite {i : Instr} {s : State} {a : Addr} (h : dataWrite i s.mem = some a) :
    ∃ (u : State) (v : Word), exec i s = .next u ∧ u.ac = s.ac ∧ u.mem = s.mem.write a v ∧
      ((i = .jns a ∧ v = zextAddr s.pc ∧ u.pc = nextAddr a) ∨
        ((i = .store a ∨ ∃ x, i = .storei x ∧ a = indirectAddr s.mem x) ∧ v = s.ac ∧ u.pc = s.pc)) := by
  obtain rfl | rfl | ⟨x, rfl, rfl⟩ := dataWrite_eq_some h
  · exact ⟨_, _, exec_jns a s, rfl, rfl, .inl ⟨rfl, rfl, rfl⟩⟩
  · exact ⟨_, _, exec_store a s, rfl, rfl, .inr ⟨.inl rfl, rfl, rfl⟩⟩
  · exact ⟨_, _, exec_storei x s, rfl, rfl, .inr ⟨.inr ⟨x, rfl, rfl⟩, rfl, rfl⟩⟩

/-- The execute phase never writes `IR` (R14). -/
theorem exec_ir {i : Instr} {s t : State} (h : exec i s = .next t) : t.ir = s.ir := by
  cases i with
  | input =>
    rw [exec, execInput_eq] at h
    cases h
    obtain ⟨b, rest, -, ht⟩ | ⟨-, -, ht⟩ | ⟨-, -, ht⟩ := s.inTake_cases <;> rw [ht]
  | undefined0xF low =>
    rw [exec, execUndefined0xF_eq] at h
    cases h
    split <;> rfl
  | skipcond x =>
    rw [exec, execSkipcond_eq] at h
    cases h
    rfl
  | _ => cases h; rfl

/-- A completed step leaves in `IR` the word it fetched (R14, R80). -/
theorem step_ir {s t : State} (henabled : s.enabled = true) (h : step s = .next t) : t.ir = s.mem.read s.pc := by
  rw [step_of_enabled henabled] at h
  obtain ⟨u, hexec, rfl⟩ := afterExecute_eq_next.1 h
  simp [exec_ir hexec]

/-- Settles O30 (R100, R102): the words are `wordOf` of the opcodes 1 and 13, and the effects are `exec_load` and `exec_loadi`. -/
theorem loadsFillTheAccumulator : Obligations.LoadsFillTheAccumulator := by
  unfold Obligations.LoadsFillTheAccumulator
  intro x
  refine ⟨decode_wordOf 0x1 x, decode_wordOf 0xD x, fun s => ⟨exec_load x s, ?_⟩⟩
  rintro p rfl
  exact exec_loadi x s

/-- Settles O31 (R101, R103): the words are `wordOf` of the opcodes 2 and 14, the effects are `exec_store` and `exec_storei`, and
what memory reads afterwards is the rule of a read after a write. -/
theorem storesWriteTheAccumulatorToOneWord : Obligations.StoresWriteTheAccumulatorToOneWord := by
  unfold Obligations.StoresWriteTheAccumulatorToOneWord
  intro x
  refine ⟨decode_wordOf 0x2 x, decode_wordOf 0xE x, fun s => ⟨?direct, ?indirect⟩⟩
  case direct =>
    exact ⟨_, exec_store x s, rfl, fun a => readAfterWriteChangesOneWord s.mem x a s.ac⟩
  case indirect =>
    exact ⟨_, exec_storei x s, rfl, fun a => readAfterWriteChangesOneWord s.mem (indirectAddr s.mem x) a s.ac⟩

/-- Settles O26 (R41): the storing step is `exec_of_dataWrite` on the fetched state, whose `AC` and memory are the old ones; the
next step fetches from the written memory (`step_ir`), where a read after a write says what stands. -/
theorem aStoreIsSeenByTheNextFetch : Obligations.AStoreIsSeenByTheNextFetch := by
  unfold Obligations.AStoreIsSeenByTheNextFetch
  rintro _ a s henabled rfl hwrite
  obtain ⟨u, v, hexec, hac, hmem, hkind⟩ := exec_of_dataWrite (s := s.consumeAck.fetch) (by simpa using hwrite)
  have hstep : step s = .next u.emitTrace := by
    rw [step_of_enabled henabled, hexec, afterExecute]
  have hread (b : Addr) : u.emitTrace.mem.read b = if b = a then v else s.mem.read b := by
    simpa [hmem] using readAfterWriteChangesOneWord s.mem a b v
  refine ⟨u.emitTrace, v, hstep, step_ir henabled hstep, by simp [hac], ?_, hread, fun w hnext hw => ?_⟩
  · simpa [zextAddr, nextAddr, indirectAddr, directAddr, trunc12] using hkind
  · rw [step_ir hnext hw, hread]

end Sys2Proof.Machine

namespace Sys2Proof.Machine

/-! ### The arithmetic instructions (R110 to R113) -/

/-- The sum of two words is the sum of their numbers, modulo 2^16 (R114). -/
theorem add16_eq_ofNat (a b : Word) : add16 a b = BitVec.ofNat 16 (a.toNat + b.toNat) :=
  BitVec.add_def a b

/-- The difference of two words is that of their numbers, modulo 2^16: 65536 is added first, so that a subtraction of natural
numbers gives it (R114). -/
theorem sub16_eq_ofNat (a b : Word) : sub16 a b = BitVec.ofNat 16 (a.toNat + 65536 - b.toNat) := by
  have hb : b.toNat < 65536 := b.isLt
  have hnat : 2 ^ 16 - b.toNat + a.toNat = a.toNat + 65536 - b.toNat := by omega
  rw [sub16, BitVec.sub_def, hnat]

/-- `Add X` changes `MAR`, `MBR` and `AC` (R110). -/
theorem exec_add (x : Addr) (s : State) :
    exec (.add x) s = .next { s with mar := x, mbr := s.mem.read x, ac := add16 s.ac (s.mem.read x) } := by
  simp only [exec, execAdd, State.loadDirect_eq, State.setAc]

/-- `Subt X` changes the same registers; the memory word is the subtrahend (R111). -/
theorem exec_subt (x : Addr) (s : State) :
    exec (.subt x) s = .next { s with mar := x, mbr := s.mem.read x, ac := sub16 s.ac (s.mem.read x) } := by
  simp only [exec, execSubt, State.loadDirect_eq, State.setAc]

/-- `AddI X` is `Add` of the word that the pointer addresses (R112). -/
theorem exec_addi (x : Addr) (s : State) :
    exec (.addi x) s = .next { s with
      mar := indirectAddr s.mem x, mbr := s.mem.read (indirectAddr s.mem x),
      ac := add16 s.ac (s.mem.read (indirectAddr s.mem x)) } := by
  simp only [exec, execAddI, State.loadIndirect_eq, State.setAc]

/-- `Clear` changes `AC` (R113). -/
theorem exec_clear (s : State) : exec .clear s = .next { s with ac := 0 } := by
  simp only [exec, execClear, State.setAc]

/-- Settles O32 (R110, R111, R112): the words are `wordOf` of the opcodes 3, 4 and 11; the effects are `exec_add`, `exec_subt` and
`exec_addi`, whose sum and difference of words are those of the numbers, modulo 2^16. -/
theorem additionsAndSubtractionUpdateTheAccumulator : Obligations.AdditionsAndSubtractionUpdateTheAccumulator := by
  unfold Obligations.AdditionsAndSubtractionUpdateTheAccumulator
  intro x
  refine ⟨decode_wordOf 0x3 x, decode_wordOf 0x4 x, decode_wordOf 0xB x, fun s => ⟨?add, ?subt, ?addi⟩⟩
  case add =>
    rw [exec_add, add16_eq_ofNat]
  case subt =>
    rw [exec_subt, sub16_eq_ofNat]
  case addi =>
    rintro p rfl
    rw [exec_addi, add16_eq_ofNat, indirectAddr, directAddr, trunc12]

/-- Settles O33 (R113): every word of the opcode 10 selects `Clear`, whatever its low bits; the effect is `exec_clear`. -/
theorem clearZeroesTheAccumulator : Obligations.ClearZeroesTheAccumulator := by
  unfold Obligations.ClearZeroesTheAccumulator
  exact ⟨decode_wordOf 0xA, exec_clear⟩

end Sys2Proof.Machine

namespace Sys2Proof.Machine

/-! ### The control transfers (R120 to R123) -/

/-- The next address is that of the successor number, modulo 4096 (R36). -/
theorem nextAddr_eq_ofNat (a : Addr) : nextAddr a = BitVec.ofNat 12 (a.toNat + 1) :=
  BitVec.add_def a 1

/-- The low 12 bits of a word are its number modulo 4096 (R12). -/
theorem trunc12_eq_ofNat (v : Word) : trunc12 v = BitVec.ofNat 12 (v.toNat % 4096) := by
  apply BitVec.eq_of_toNat_eq
  rw [trunc12, BitVec.toNat_setWidth, BitVec.toNat_ofNat, Nat.mod_mod]

/-- `Jump X` changes `PC` (R121). -/
theorem exec_jump (x : Addr) (s : State) : exec (.jump x) s = .next { s with pc := x } := by
  simp only [exec, execJump, State.setPc]

/-- `JumpI X` reads one word, the one at `X`, and goes to the address in its low 12 bits (R122). -/
theorem exec_jumpi (x : Addr) (s : State) :
    exec (.jumpi x) s = .next { s with mar := x, mbr := s.mem.read x, pc := trunc12 (s.mem.read x) } := by
  simp only [exec, execJumpI, State.loadDirect_eq, State.setPc]

/-- The condition of each selector on the signed value of `AC`; selector 3 has none (R123, D4). -/
theorem skipCondition_iff (sel : BitVec 2) (ac : Word) :
    skipCondition sel ac = true ↔
      (sel = 0 ∧ signedValue ac < 0) ∨ (sel = 1 ∧ ac = 0) ∨ (sel = 2 ∧ 0 < signedValue ac) := by
  obtain ⟨⟨n, hn⟩⟩ := sel
  interval_cases n <;> simp [skipCondition]

/-- `Skipcond` whose condition holds advances `PC` once more (R123). -/
theorem exec_skipcond_of_skipCondition {x : Addr} {s : State} (h : skipCondition (selectorField x) s.ac = true) :
    exec (.skipcond x) s = .next { s with pc := nextAddr s.pc } := by
  rw [exec, execSkipcond_eq, if_pos h]

/-- `Skipcond` whose condition fails changes nothing (R123). -/
theorem exec_skipcond_of_not_skipCondition {x : Addr} {s : State} (h : ¬ skipCondition (selectorField x) s.ac = true) :
    exec (.skipcond x) s = .next s := by
  rw [exec, execSkipcond_eq, if_neg h]

/-- Settles O35 (R120): the word is `wordOf` of the opcode 0, the effect is `exec_jns`, and what memory reads afterwards is the rule
of a read after a write. -/
theorem jnSStoresTheReturnAddressAndEnters : Obligations.JnSStoresTheReturnAddressAndEnters := by
  unfold Obligations.JnSStoresTheReturnAddressAndEnters
  intro x
  refine ⟨decode_wordOf 0x0 x, fun s => ⟨_, exec_jns x s, ?_, fun a => readAfterWriteChangesOneWord s.mem x a _⟩⟩
  rw [nextAddr_eq_ofNat, zextAddr]

/-- Settles O36 (R121, R122): the words are `wordOf` of the opcodes 9 and 12; the effects are `exec_jump` and `exec_jumpi`, whose
target is the pointer's number modulo 4096. -/
theorem jumpsSetTheProgramCounter : Obligations.JumpsSetTheProgramCounter := by
  unfold Obligations.JumpsSetTheProgramCounter
  intro x
  refine ⟨decode_wordOf 0x9 x, decode_wordOf 0xC x, fun s => ⟨exec_jump x s, ?_⟩⟩
  rw [exec_jumpi, trunc12_eq_ofNat]

/-- Settles O37 (R123): the word is `wordOf` of the opcode 8, and the condition stated for the selector is the one the machine
tests (`skipCondition_iff`); the step skips or changes nothing as it holds or fails. -/
theorem skipcondSkipsOnItsCondition : Obligations.SkipcondSkipsOnItsCondition := by
  unfold Obligations.SkipcondSkipsOnItsCondition
  refine fun x => ⟨decode_wordOf 0x8 x, fun s cond hcond => ?_⟩
  have hskip : skipCondition (selectorField x) s.ac = true ↔ cond := (skipCondition_iff _ _).trans hcond.symm
  refine ⟨fun h => ?skips, fun h => exec_skipcond_of_not_skipCondition (mt hskip.1 h)⟩
  case skips =>
    rw [exec_skipcond_of_skipCondition (hskip.2 h), nextAddr_eq_ofNat]

end Sys2Proof.Machine

namespace Sys2Proof.Machine

/-! ### Input, output, halting and opcode 0xF (R130 to R134) -/

/-- `InTake` removes the byte at the head of the input stream (R130). -/
theorem State.inTake_of_input_cons {s : State} {b : Byte} {rest : List Byte} (h : s.input = b :: rest) :
    s.inTake = some (b, { s with input := rest }) := by
  simp only [State.inTake, h]

/-- `InTake` answers `IN_EOF_BYTE` at the end of the input stream and removes nothing (R130). -/
theorem State.inTake_of_inputEnded {s : State} (hempty : s.input = []) (hended : s.inputEnded = true) :
    s.inTake = some (s.inEofByte, s) := by
  simp only [State.inTake, hempty, hended, if_true]

/-- `Input` latches the byte that `InTake` answers, in the state that `InTake` leaves (R130). -/
theorem exec_input_of_inTake {s t : State} {b : Byte} (h : s.inTake = some (b, t)) :
    exec .input s = .next { t with inReg := b, ac := zextByte b } := by
  rw [exec, execInput_eq, h]

/-- The low byte of a word is its number modulo 256 (R131). -/
theorem lowByte_eq_ofNat (v : Word) : lowByte v = BitVec.ofNat 8 (v.toNat % 256) := by
  apply BitVec.eq_of_toNat_eq
  rw [lowByte, BitVec.toNat_setWidth, BitVec.toNat_ofNat, Nat.mod_mod]

/-- `Output` changes `OutREG` and appends its byte to the output stream (R131). -/
theorem exec_output (s : State) :
    exec .output s = .next { s with outReg := lowByte s.ac, output := s.output ++ [lowByte s.ac] } := by
  simp only [exec, execOutput, State.setOutReg, State.outEmit]

/-- `Halt` changes `STATUS` (R132). -/
theorem exec_halt (s : State) : exec .halt s = .next { s with status := .halted } := by
  simp only [exec, execHalt, State.setStatus]

/-- Opcode 0xF under policy `fatal` takes the exception (R134, R170). -/
theorem exec_undefined0xF_of_fatal (low : Addr) {s : State} (h : s.undefPolicy = .fatal) :
    exec (.undefined0xF low) s = .next { s with status := .fault, faultInfo := some ⟨s.ir, s.mar⟩ } := by
  rw [exec, execUndefined0xF_eq, if_pos h, State.raiseUndefinedOpcode]

/-- Opcode 0xF under policy `nop` changes nothing (R134). -/
theorem exec_undefined0xF_of_nop (low : Addr) {s : State} (h : s.undefPolicy = .nop) :
    exec (.undefined0xF low) s = .next s := by
  have hfatal : s.undefPolicy ≠ .fatal := by simp [h]
  rw [exec, execUndefined0xF_eq, if_neg hfatal]

/-- Settles O39 (R130): every word of the opcode 5 selects `Input`; in either case the effect is `exec_input_of_inTake`, for the
byte that `InTake` answers there. -/
theorem inputLatchesTheNextByte : Obligations.InputLatchesTheNextByte := by
  unfold Obligations.InputLatchesTheNextByte
  refine ⟨decode_wordOf 0x5, fun s => ⟨?available, ?ended⟩⟩
  case available =>
    intro b rest hinput
    rw [exec_input_of_inTake (State.inTake_of_input_cons hinput), zextByte]
  case ended =>
    intro hempty hended
    rw [exec_input_of_inTake (State.inTake_of_inputEnded hempty hended), zextByte]

/-- Settles O41 (R131): every word of the opcode 6 selects `Output`; the effect is `exec_output`, whose byte is the number of `AC`
modulo 256. -/
theorem outputEmitsTheLowByte : Obligations.OutputEmitsTheLowByte := by
  unfold Obligations.OutputEmitsTheLowByte
  refine ⟨decode_wordOf 0x6, fun s => ?_⟩
  rw [exec_output, lowByte_eq_ofNat]

/-- Settles O42 (R132): every word of the opcode 7 selects `Halt`; the effect is `exec_halt`. -/
theorem haltStopsTheMachine : Obligations.HaltStopsTheMachine := by
  unfold Obligations.HaltStopsTheMachine
  exact ⟨decode_wordOf 0x7, exec_halt⟩

/-- Settles O43 (R134): the word is `wordOf` of the opcode 15, and each policy has its own lemma. -/
theorem undefinedOpcodeFollowsThePolicy : Obligations.UndefinedOpcodeFollowsThePolicy := by
  unfold Obligations.UndefinedOpcodeFollowsThePolicy
  exact fun low =>
    ⟨decode_wordOf 0xF low, fun _ => ⟨exec_undefined0xF_of_fatal low, exec_undefined0xF_of_nop low⟩⟩

end Sys2Proof.Machine

namespace Sys2Proof.Machine

/-! ### The name order (R146) -/

/-- Two bytes compare as their numbers do. -/
theorem compare_byte_eq_ite (x y : Byte) :
    compare x y = if x.toNat < y.toNat then .lt else if y.toNat < x.toNat then .gt else .eq := by
  rw [← Nat.compare_eq_ite_lt]
  simp only [compare, compareOfLessAndEq, BitVec.lt_def, BitVec.toNat_inj]

/-- The order of R146 is the library's lexicographic comparison by unsigned bytes, whose laws then hold of it. -/
theorem compareNames_eq_compareLex : compareNames = List.compareLex compare := by
  funext a b
  induction a generalizing b with
  | nil => cases b <;> rfl
  | cons x xs ih =>
    cases b with
    | nil => rfl
    | cons y ys =>
      rw [compareNames, List.compareLex_cons_cons, compare_byte_eq_ite, ih]
      split_ifs <;> rfl

/-- Swapping two names swaps the order's answer, and the order is transitive (R146). -/
theorem transCmp_compareNames : Std.TransCmp compareNames := by
  rw [compareNames_eq_compareLex]
  exact inferInstance

/-- Names that compare as equal are the same sequence of bytes (R146). -/
theorem lawfulEqCmp_compareNames : Std.LawfulEqCmp compareNames := by
  rw [compareNames_eq_compareLex]
  exact inferInstance

/-! ### `FINALISE` (R145) -/

/-- The first symbol's name is not after the second's: the order the table is sorted in. -/
abbrev NameLE (a b : Symbol) : Prop := (compareNames a.name b.name).isLE = true

/-- Of two symbols one is not after the other: swapping the names swaps the answer. -/
theorem nameLE_total (a b : Symbol) : NameLE a b ∨ NameLE b a := by
  have := transCmp_compareNames
  rw [NameLE, NameLE, Std.OrientedCmp.eq_swap (cmp := compareNames) (a := b.name)]
  cases compareNames a.name b.name <;> decide

/-- A symbol is put into the table as the library's `orderedInsert` puts it. -/
theorem insertSorted_eq_orderedInsert (e : Symbol) (l : List Symbol) :
    insertSorted e l = l.orderedInsert NameLE e := by
  induction l with
  | nil => rfl
  | cons f rest ih =>
    rw [insertSorted, List.orderedInsert_cons, ih]
    simp only [NameLE, Ordering.isLE_iff_ne_gt, ite_not]

/-- The table is sorted by the library's insertion sort. -/
theorem sortSymbols_eq_insertionSort (l : List Symbol) : sortSymbols l = l.insertionSort NameLE := by
  induction l with
  | nil => rfl
  | cons e rest ih => rw [sortSymbols, ih, insertSorted_eq_orderedInsert, List.insertionSort_cons]

/-- The sort loses and invents no symbol (R145). -/
theorem sortSymbols_perm (l : List Symbol) : (sortSymbols l).Perm l := by
  rw [sortSymbols_eq_insertionSort]
  exact List.perm_insertionSort NameLE l

/-- No symbol of the sorted table stands before one of a smaller name, whether or not the names are unique. -/
theorem pairwise_nameLE_sortSymbols (l : List Symbol) : (sortSymbols l).Pairwise NameLE := by
  have := transCmp_compareNames
  have htotal : Std.Total NameLE := ⟨nameLE_total⟩
  have htrans : IsTrans Symbol NameLE := ⟨fun _ _ _ => Std.TransCmp.isLE_trans⟩
  rw [sortSymbols_eq_insertionSort]
  exact List.pairwise_insertionSort NameLE l

/-- Of different names, one that is not after the other is before it (R146). -/
theorem NameLE.lt_of_ne {a b : Symbol} (h : NameLE a b) (hne : a.name ≠ b.name) :
    compareNames a.name b.name = .lt := by
  have := lawfulEqCmp_compareNames
  exact (Ordering.isLE_iff_eq_lt_or_eq_eq.1 h).resolve_right (mt Std.LawfulEqCmp.compare_eq_iff_eq.1 hne)

/-- Sorting keeps names unique (R140). -/
theorem uniqueNames_sortSymbols {l : List Symbol} (h : UniqueNames l) : UniqueNames (sortSymbols l) :=
  ((sortSymbols_perm l).map (·.name)).nodup_iff.2 h

/-- A table of unique names is sorted strictly (R141, R145). -/
theorem sortedByName_sortSymbols {l : List Symbol} (h : UniqueNames l) : SortedByName (sortSymbols l) :=
  (pairwise_nameLE_sortSymbols l).imp₂ (fun _ _ => NameLE.lt_of_ne) (List.pairwise_map.1 (uniqueNames_sortSymbols h))

/-- Two tables of the same symbols that both increase strictly by name are the same: no two symbols are each before the other
(R145). -/
theorem SortedByName.eq_of_perm {l₁ l₂ : List Symbol} (h₁ : SortedByName l₁) (h₂ : SortedByName l₂)
    (hperm : l₁.Perm l₂) : l₁ = l₂ := by
  have := transCmp_compareNames
  refine hperm.eq_of_pairwise (fun a b _ _ hab hba => ?_) h₁ h₂
  exact absurd hba (Std.OrientedCmp.not_lt_of_lt hab)

/-- `FINALISE` succeeds in phase `collecting` only; it sorts the table and moves on to phase `final` (R145, R155). -/
theorem SymbolTable.finalise_eq_ok_iff {t t' : SymbolTable} :
    t.finalise = .ok t' ↔ t.phase = .collecting ∧ t' = ⟨sortSymbols t.entries, .final⟩ := by
  unfold SymbolTable.finalise
  cases t.phase <;> simp [eq_comm]

/-- `FINALISE`'s table meets the invariant when the table before it did (R140, R141). -/
theorem SymbolTable.Invariant.finalised {t : SymbolTable} (h : t.Invariant) :
    SymbolTable.Invariant ⟨sortSymbols t.entries, .final⟩ := by
  obtain ⟨hcap, huniq, -⟩ := h
  exact ⟨(sortSymbols_perm t.entries).length_eq.trans_le hcap, uniqueNames_sortSymbols huniq,
    fun _ => sortedByName_sortSymbols huniq⟩

/-- A table in phase `final` that meets the invariant is sorted (R141). -/
theorem SymbolTable.Invariant.sortedByName {t : SymbolTable} (h : t.Invariant) (hphase : t.phase = .final) :
    SortedByName t.entries := by
  obtain ⟨-, -, hsorted⟩ := h
  exact hsorted hphase

/-- Settles O51 (R145): the sort permutes the table and, as the invariant has names unique, sorts it strictly; a strict order leaves
one permutation. -/
theorem finaliseSortsTheTable : Obligations.FinaliseSortsTheTable := by
  unfold Obligations.FinaliseSortsTheTable
  intro t t' hinv hfinal
  obtain ⟨-, rfl⟩ := SymbolTable.finalise_eq_ok_iff.1 hfinal
  have hperm := sortSymbols_perm t.entries
  have hsorted : SortedByName (sortSymbols t.entries) := hinv.finalised.sortedByName rfl
  exact ⟨hperm, hsorted, rfl, hinv.finalised, fun other hother hsortedOther =>
    hsortedOther.eq_of_perm hsorted (hother.trans hperm.symm)⟩

end Sys2Proof.Machine

namespace Sys2Proof

/-! ### Opcode 15 in the words (R52, R56) -/

/-- The words of opcode 15 are the highest 4096 (R52). -/
theorem opcodeField_eq_15_iff (w : Word) : opcodeField w = 0xF ↔ 0xF000 ≤ w.toNat := by
  have hop : (opcodeField w).toNat < 16 := (opcodeField w).isLt
  have hx : (operandField w).toNat < 4096 := (operandField w).isLt
  have hval : w.toNat = (opcodeField w).toNat * 4096 + (operandField w).toNat := by
    rw [← wordOf_toNat, wordOf_fields]
  have h15 : (0xF : Opcode).toNat = 15 := rfl
  rw [← BitVec.toNat_inj, h15]
  omega

/-- The words of opcode 15, and no others, decode to the row `UNDEFINED_0xF` (R56). -/
theorem decode_eq_undefined0xF_iff (w : Word) :
    (∃ low, decode w = .undefined0xF low) ↔ 0xF000 ≤ w.toNat := by
  rw [← opcodeField_eq_15_iff]
  constructor
  · rintro ⟨low, h⟩
    have hop : (decode w).opcode = opcodeField w := opcode_instrOf _ _
    rw [← hop, h, Instr.opcode]
  · intro h
    exact ⟨operandField w, by rw [decode, h]; rfl⟩

end Sys2Proof

namespace Sys2Proof.Machine

/-! ### The exception (R170, R175) -/

/-- The execute phase comes to `STATUS = FAULT` from another status only in the arm of opcode 15 under policy `fatal`, which raises
the exception and does nothing else (R170). -/
theorem exec_eq_next_fault {i : Instr} {s t : State} (hstatus : s.status ≠ .fault) (h : exec i s = .next t)
    (hfault : t.status = .fault) :
    (∃ low, i = .undefined0xF low) ∧ s.undefPolicy = .fatal ∧ t = s.raiseUndefinedOpcode := by
  cases i with
  | undefined0xF low =>
    cases hpolicy : s.undefPolicy with
    | fatal =>
      rw [exec_undefined0xF_of_fatal low hpolicy] at h
      cases h
      exact ⟨⟨low, rfl⟩, rfl, rfl⟩
    | nop =>
      rw [exec_undefined0xF_of_nop low hpolicy] at h
      cases h
      exact absurd hfault hstatus
  | input =>
    rw [exec, execInput_eq] at h
    cases h
    obtain ⟨b, rest, -, ht⟩ | ⟨-, -, ht⟩ | ⟨-, -, ht⟩ := s.inTake_cases <;> rw [ht] at hfault <;>
      exact absurd hfault hstatus
  | skipcond x =>
    rw [exec, execSkipcond_eq] at h
    cases h
    exact absurd hfault hstatus
  | halt =>
    rw [exec_halt] at h
    cases h
    cases hfault
  | _ =>
    cases h
    exact absurd hfault hstatus

/-- The state in which the exception is raised: the one after the fetch, with the record of `IR` and `MAR` (R175). -/
theorem State.raiseUndefinedOpcode_fetch_consumeAck (s : State) :
    s.consumeAck.fetch.raiseUndefinedOpcode = { s.consumeAck with
      mar := s.pc, pc := nextAddr s.pc, ir := s.mem.read s.pc, status := .fault,
      faultInfo := some ⟨s.mem.read s.pc, s.pc⟩ } := by
  simp [State.raiseUndefinedOpcode, State.fetch, State.setMar, State.setPc, State.setIr]

/-- An enabled step takes the exception when the fetched word has opcode 15 and the policy is `fatal`, and not otherwise; this is
all that it then does (R170, R175). -/
theorem step_eq_next_fault_iff {s t : State} (henabled : s.enabled = true) :
    (step s = .next t ∧ t.status = .fault) ↔
      (s.undefPolicy = .fatal ∧ 0xF000 ≤ (s.mem.read s.pc).toNat) ∧
        t = s.consumeAck.fetch.raiseUndefinedOpcode.emitTrace := by
  rw [step_of_enabled henabled, afterExecute_eq_next, ← decode_eq_undefined0xF_iff]
  constructor
  case mp =>
    rintro ⟨⟨u, hexec, rfl⟩, hfault⟩
    have hrun : s.consumeAck.fetch.status ≠ .fault := by
      obtain ⟨hstatus, -, -⟩ := s.enabled_iff.1 henabled
      simp [hstatus]
    obtain ⟨hundef, hpolicy, rfl⟩ := exec_eq_next_fault hrun hexec (by simpa using hfault)
    exact ⟨⟨by simpa using hpolicy, hundef⟩, rfl⟩
  case mpr =>
    rintro ⟨⟨hpolicy, low, hundef⟩, rfl⟩
    have hfatal : s.consumeAck.fetch.undefPolicy = .fatal := by simpa using hpolicy
    rw [hundef, exec_undefined0xF_of_fatal low hfatal]
    exact ⟨⟨_, rfl, rfl⟩, by simp [State.raiseUndefinedOpcode]⟩

/-- Settles O12 (R170, R175): `step_eq_next_fault_iff` says when the step takes the exception and gives its one next state. -/
theorem undefinedOpcodeIsTheOnlyException : Obligations.UndefinedOpcodeIsTheOnlyException := by
  unfold Obligations.UndefinedOpcodeIsTheOnlyException
  refine fun s henabled => ⟨⟨?raised, ?raises⟩, ?nothingElse⟩
  case raised =>
    rintro ⟨t, ht⟩
    exact ((step_eq_next_fault_iff henabled).1 ht).1
  case raises =>
    exact fun h => ⟨_, (step_eq_next_fault_iff henabled).2 ⟨h, rfl⟩⟩
  case nothingElse =>
    intro t hstep hfault
    obtain ⟨-, rfl⟩ := (step_eq_next_fault_iff henabled).1 ⟨hstep, hfault⟩
    rw [State.raiseUndefinedOpcode_fetch_consumeAck, nextAddr]

end Sys2Proof.Machine

namespace Sys2Proof

/-! ### Words and instructions, both ways (R52, R53, R55) -/

/-- An instruction is the one that its opcode selects with its operand field (R53). -/
theorem instrOf_opcode_field (i : Instr) : instrOf i.opcode i.field = i := by
  cases i <;> rfl

/-- The decoded instruction has the word's opcode (R52). -/
theorem opcode_decode (w : Word) : (decode w).opcode = opcodeField w :=
  opcode_instrOf _ _

/-- Settles O1 (R52, R54, R73): the word holds the instruction's opcode and operand field, and these two select it. -/
theorem decodeEncodeGivesBackTheInstruction : Obligations.DecodeEncodeGivesBackTheInstruction := by
  unfold Obligations.DecodeEncodeGivesBackTheInstruction
  intro i
  rw [encode, decode_wordOf, instrOf_opcode_field]

/-- `AND` acts on the two fields of a word apart. -/
theorem wordOf_and_wordOf (op op' : Opcode) (x y : Addr) :
    wordOf op x &&& wordOf op' y = wordOf (op &&& op') (x &&& y) := by
  simp only [wordOf_eq_append]
  exact BitVec.and_append

/-- `OR` acts on the two fields of a word apart. -/
theorem wordOf_or_wordOf (op op' : Opcode) (x y : Addr) :
    wordOf op x ||| wordOf op' y = wordOf (op ||| op') (x ||| y) := by
  simp only [wordOf_eq_append]
  exact BitVec.or_append

/-- The mask of R53's rows keeps the opcode and clears the operand field. -/
theorem and_opcodeMask (w : Word) : w &&& 0xF000#16 = wordOf (opcodeField w) 0 := by
  calc w &&& 0xF000#16
      = wordOf (opcodeField w) (operandField w) &&& wordOf (BitVec.allOnes 4) 0 := by rw [wordOf_fields]; rfl
    _ = wordOf (opcodeField w) 0 := by rw [wordOf_and_wordOf, BitVec.and_allOnes, BitVec.ofNat_eq_ofNat, BitVec.and_zero]

/-- Every row of R53 has the opcode's mask, and its pattern is the opcode with a zero operand field. -/
theorem mask_pattern_of_mem_opcodeTable :
    ∀ row ∈ opcodeTable, row.mask = 0xF000#16 ∧ row.pattern = wordOf row.opcode 0 := by decide

/-- Every opcode value has a row (R53). -/
theorem exists_row_of_opcode : ∀ op : Opcode, ∃ row ∈ opcodeTable, row.opcode = op := by decide

/-- No two rows have the same opcode (R53). -/
theorem row_eq_of_opcode_eq :
    ∀ row ∈ opcodeTable, ∀ row' ∈ opcodeTable, row'.opcode = row.opcode → row' = row := by decide

/-- A word is of a row by mask and pattern exactly when it has the row's opcode (R53). -/
theorem matchesWord_iff {row : OpcodeRow} (hrow : row ∈ opcodeTable) (w : Word) :
    row.matchesWord w = true ↔ row.opcode = opcodeField w := by
  obtain ⟨hmask, hpattern⟩ := mask_pattern_of_mem_opcodeTable row hrow
  rw [OpcodeRow.matchesWord, hmask, hpattern, and_opcodeMask, beq_iff_eq]
  constructor
  · intro h
    rw [← opcodeField_wordOf row.opcode 0, ← h, opcodeField_wordOf]
  · intro h
    rw [h]

/-- Settles O3 (R53): a word is of the rows with its opcode (`matchesWord_iff`); there is one such row, and no second. -/
theorem everyWordIsOfExactlyOneOpcodeRow : Obligations.EveryWordIsOfExactlyOneOpcodeRow := by
  unfold Obligations.EveryWordIsOfExactlyOneOpcodeRow
  intro w
  obtain ⟨row, hrow, hop⟩ := exists_row_of_opcode (opcodeField w)
  refine ⟨row, hrow, (matchesWord_iff hrow w).2 hop, hop.trans (opcode_decode w).symm, ?_⟩
  intro row' hrow' hmatch
  exact row_eq_of_opcode_eq row hrow row' hrow' (((matchesWord_iff hrow' w).1 hmatch).trans hop.symm)

/-- The bits a word's decoding depends on, by its opcode: only the opcode's own in format N (R55). -/
theorem significantMask_eq (w : Word) :
    significantMask w = if opcodeField w ∈ [0x5#4, 0x6, 0x7, 0xA] then 0xF000 else 0xFFFF := by
  rw [significantMask]
  generalize opcodeField w = op
  obtain ⟨⟨n, hn⟩⟩ := op
  interval_cases n <;> rfl

/-- Settles O4 (R55): re-encoding puts the opcode before the operand field, which format N replaces by zeros; the mask of format N
does the same to the word, and the full mask leaves it as it is. -/
theorem decodingDropsOnlyIgnoredBits : Obligations.DecodingDropsOnlyIgnoredBits := by
  unfold Obligations.DecodingDropsOnlyIgnoredBits
  intro w
  rw [encode, opcode_decode, decode, field_instrOf, significantMask_eq]
  split
  case isTrue => exact (and_opcodeMask w).symm
  case isFalse => rw [wordOf_fields]; exact (BitVec.and_allOnes (x := w)).symm

/-- The selector is the same two bits whether cut from the word or from its operand field (R54). -/
theorem selectorField_operandField (w : Word) : selectorField (operandField w) = w.extractLsb' 10 2 := by
  exact BitVec.extractLsb'_extractLsb'_of_le (by decide)

/-- Settles O6: each word is decoded by evaluation. -/
theorem wordsOfTheSpecDecodeAsNamed : Obligations.WordsOfTheSpecDecodeAsNamed := by
  unfold Obligations.WordsOfTheSpecDecodeAsNamed
  decide

end Sys2Proof

namespace Sys2Proof.Machine

/-- `Skipcond` looks at no bit of its operand field but the selector's (R55, R123). -/
theorem exec_skipcond_congr {x y : Addr} (h : selectorField x = selectorField y) (s : State) :
    exec (.skipcond x) s = exec (.skipcond y) s := by
  rw [exec, exec, execSkipcond_eq, execSkipcond_eq, h]

/-- Settles O5 (R55): in format N the two words decode to the same instruction; of a `Skipcond` only the selector counts. -/
theorem ignoredBitsHaveNoEffect : Obligations.IgnoredBitsHaveNoEffect := by
  unfold Obligations.IgnoredBitsHaveNoEffect
  intro w w' s hop hcase
  rw [decode, decode, ← hop]
  obtain h | h | h | h | ⟨h, hsel⟩ := hcase <;> rw [h]
  iterate 4
    · rfl
  · exact exec_skipcond_congr (by rw [selectorField_operandField, selectorField_operandField, hsel]) s

end Sys2Proof.Machine

namespace Sys2Proof.Machine

/-! ### The execute phase as one update of the state (R80, R85) -/

/-- The byte that `InTake` answers where it answers one: the next of the stream, `IN_EOF_BYTE` when there is none (R130). -/
def State.nextByte (s : State) : Byte := s.input.headD s.inEofByte

/-- What an instruction makes of the fetched state. The condition of a branching instruction stands inside the fields it changes,
so that each instruction is one update of the state, which commutes with any change to the fields it neither reads nor writes. -/
def effect (i : Instr) (s : State) : State :=
  match i with
  | .jns x => { s with mar := x, mbr := zextAddr s.pc, mem := s.mem.write x (zextAddr s.pc), pc := nextAddr x }
  | .load x => { s with mar := x, mbr := s.mem.read x, ac := s.mem.read x }
  | .store x => { s with mar := x, mbr := s.ac, mem := s.mem.write x s.ac }
  | .add x => { s with mar := x, mbr := s.mem.read x, ac := add16 s.ac (s.mem.read x) }
  | .subt x => { s with mar := x, mbr := s.mem.read x, ac := sub16 s.ac (s.mem.read x) }
  | .input => { s with
      input := s.input.tail
      inReg := if s.inputReady then s.nextByte else s.inReg
      ac := if s.inputReady then zextByte s.nextByte else s.ac }
  | .output => { s with outReg := lowByte s.ac, output := s.output ++ [lowByte s.ac] }
  | .halt => { s with status := .halted }
  | .skipcond x => { s with pc := if skipCondition (selectorField x) s.ac then nextAddr s.pc else s.pc }
  | .jump x => { s with pc := x }
  | .clear => { s with ac := 0 }
  | .addi x => { s with
      mar := indirectAddr s.mem x
      mbr := s.mem.read (indirectAddr s.mem x)
      ac := add16 s.ac (s.mem.read (indirectAddr s.mem x)) }
  | .jumpi x => { s with mar := x, mbr := s.mem.read x, pc := trunc12 (s.mem.read x) }
  | .loadi x => { s with
      mar := indirectAddr s.mem x
      mbr := s.mem.read (indirectAddr s.mem x)
      ac := s.mem.read (indirectAddr s.mem x) }
  | .storei x => { s with
      mar := indirectAddr s.mem x, mbr := s.ac, mem := s.mem.write (indirectAddr s.mem x) s.ac }
  | .undefined0xF _ => { s with
      status := if s.undefPolicy = .fatal then .fault else s.status
      faultInfo := if s.undefPolicy = .fatal then some ⟨s.ir, s.mar⟩ else s.faultInfo }

/-- `Input` is its update in each of the three cases of `InTake` (R130, log 11). -/
theorem exec_input (s : State) : exec .input s = .next (effect .input s) := by
  obtain ⟨b, rest, hinput, htake⟩ | ⟨hinput, hended, htake⟩ | ⟨hinput, hended, htake⟩ := s.inTake_cases
  case inl =>
    rw [exec_input_of_inTake htake]
    simp [effect, State.inputReady, State.nextByte, hinput]
  case inr.inl =>
    rw [exec_input_of_inTake htake]
    simp [effect, State.inputReady, State.nextByte, hended, hinput]
  case inr.inr =>
    rw [exec, execInput_eq, htake]
    cases s
    cases hinput
    cases hended
    rfl

/-- Opcode 0xF is its update under both policies (R134). -/
theorem exec_undefined0xF (low : Addr) (s : State) :
    exec (.undefined0xF low) s = .next (effect (.undefined0xF low) s) := by
  rw [exec, execUndefined0xF_eq, effect]
  split <;> rfl

/-- Every execute phase answers a next state, and it is the instruction's update (R80, R82). -/
theorem exec_eq_next_effect (i : Instr) (s : State) : exec i s = .next (effect i s) := by
  cases i with
  | input => exact exec_input s
  | skipcond x => exact execSkipcond_eq x s
  | undefined0xF low => exact exec_undefined0xF low s
  | _ => rfl

/-- An enabled step is the fetch, the update of the decoded instruction, and the trace record (R80). -/
theorem step_eq_next_effect {s : State} (h : s.enabled = true) :
    step s = .next (effect (decode (s.mem.read s.pc)) s.consumeAck.fetch).emitTrace := by
  rw [step_of_enabled h, exec_eq_next_effect, afterExecute]

/-! ### What no instruction changes, and the updates of `Halt` and opcode 0xF -/

section
variable (i : Instr) (s : State)

@[simp] theorem effect_ir : (effect i s).ir = s.ir := by cases i <;> rfl
@[simp] theorem effect_inputEnded : (effect i s).inputEnded = s.inputEnded := by cases i <;> rfl
@[simp] theorem effect_stepAcks : (effect i s).stepAcks = s.stepAcks := by cases i <;> rfl
@[simp] theorem effect_trace : (effect i s).trace = s.trace := by cases i <;> rfl
@[simp] theorem effect_undefPolicy : (effect i s).undefPolicy = s.undefPolicy := by cases i <;> rfl
@[simp] theorem effect_stepMode : (effect i s).stepMode = s.stepMode := by cases i <;> rfl
@[simp] theorem effect_traceMode : (effect i s).traceMode = s.traceMode := by cases i <;> rfl
@[simp] theorem effect_inEofByte : (effect i s).inEofByte = s.inEofByte := by cases i <;> rfl

end

/-- Opcode 0xF under policy `fatal` takes the exception (R134). -/
theorem effect_undefined0xF_of_fatal (low : Addr) {s : State} (h : s.undefPolicy = .fatal) :
    effect (.undefined0xF low) s = s.raiseUndefinedOpcode := by
  rw [effect, if_pos h, if_pos h, State.raiseUndefinedOpcode]

/-- Opcode 0xF under policy `nop` changes nothing (R134). -/
theorem effect_undefined0xF_of_nop (low : Addr) {s : State} (h : s.undefPolicy = .nop) :
    effect (.undefined0xF low) s = s := by
  have hfatal : s.undefPolicy ≠ .fatal := by simp [h]
  rw [effect, if_neg hfatal, if_neg hfatal]

/-- The three outcomes of an execute phase (R85): a `Halt`, the exception, or a completed instruction, which leaves `STATUS` and
`FAULT_INFO` alone. -/
theorem effect_outcomes (i : Instr) (s : State) :
    (i.opcode = 7 ∧ effect i s = { s with status := .halted }) ∨
    (i.opcode = 0xF ∧ s.undefPolicy = .fatal ∧ effect i s = s.raiseUndefinedOpcode) ∨
    (i.opcode ≠ 7 ∧ (i.opcode = 0xF → s.undefPolicy = .nop) ∧
      (effect i s).status = s.status ∧ (effect i s).faultInfo = s.faultInfo) := by
  cases i with
  | halt => exact .inl ⟨rfl, rfl⟩
  | undefined0xF low =>
    cases hpolicy : s.undefPolicy with
    | fatal => exact .inr (.inl ⟨rfl, rfl, effect_undefined0xF_of_fatal low hpolicy⟩)
    | nop =>
      rw [effect_undefined0xF_of_nop low hpolicy]
      exact .inr (.inr ⟨by simp [Instr.opcode], fun _ => rfl, rfl, rfl⟩)
  | _ => exact .inr (.inr ⟨by simp [Instr.opcode], by simp [Instr.opcode], rfl, rfl⟩)

/-- An instruction writes the word that R34's table lists. -/
theorem effect_mem_of_dataWrite {i : Instr} {s : State} {a : Addr} (h : dataWrite i s.mem = some a) :
    ∃ v, (effect i s).mem = s.mem.write a v := by
  obtain ⟨u, v, hexec, -, hmem, -⟩ := exec_of_dataWrite h
  rw [exec_eq_next_effect] at hexec
  cases hexec
  exact ⟨v, hmem⟩

/-- An instruction for which R34's table lists no write leaves memory alone. -/
theorem effect_mem_of_dataWrite_none {i : Instr} {s : State} (h : dataWrite i s.mem = none) :
    (effect i s).mem = s.mem := by
  cases i with
  | jns x | store x | storei x => cases h
  | _ => rfl

/-! ### The step engine (R81 to R91) -/

/-- Settles O8 (R81): the enabling conditions are `State.enabled_iff`, and a step that is not enabled changes nothing. -/
theorem stepIsHeldExactlyOutsideItsConditions : Obligations.StepIsHeldExactlyOutsideItsConditions := by
  unfold Obligations.StepIsHeldExactlyOutsideItsConditions
  exact fun s => ⟨s.enabled_iff, step_of_not_enabled⟩

/-- Settles O9 (R82): every execute phase answers a next state, and so does a step that is not enabled. -/
theorem everyStepAnswersANextState : Obligations.EveryStepAnswersANextState := by
  unfold Obligations.EveryStepAnswersANextState
  intro s
  cases henabled : s.enabled with
  | false => exact ⟨s, step_of_not_enabled henabled⟩
  | true => exact ⟨_, step_eq_next_effect henabled⟩

/-- Settles O10 (R85): the outcomes are those of the execute phase (`effect_outcomes`) on the fetched state, whose status is `RUN`. -/
theorem enabledStepEndsInRunHaltedOrFault : Obligations.EnabledStepEndsInRunHaltedOrFault := by
  unfold Obligations.EnabledStepEndsInRunHaltedOrFault
  intro s henabled
  obtain ⟨hrun, -, -⟩ := s.enabled_iff.1 henabled
  refine ⟨_, step_eq_next_effect henabled, by simp, ?_⟩
  rw [← opcode_decode]
  obtain ⟨hop, heffect⟩ | ⟨hop, hpolicy, heffect⟩ | ⟨hop, hpolicy, hstatus, hfault⟩ :=
    effect_outcomes (decode (s.mem.read s.pc)) s.consumeAck.fetch
  case inl => simp [hop, heffect, nextAddr]
  case inr.inl =>
    have hfatal : s.undefPolicy = .fatal := by simpa using hpolicy
    simp [hop, heffect, hfatal, nextAddr]
  case inr.inr =>
    have hnop : (decode (s.mem.read s.pc)).opcode = 0xF → s.undefPolicy = .nop := by simpa using hpolicy
    refine ⟨fun h => absurd h hop, fun ⟨h, hfatal⟩ => ?_, fun _ _ => by simp [hstatus, hfault, hrun]⟩
    rw [hnop h] at hfatal
    cases hfatal

end Sys2Proof.Machine

namespace Sys2Proof.Machine

/-! ### Runs that are over (R22, R91) -/

/-- No step of a run that is over is enabled (R91). -/
theorem State.over.not_enabled {s : State} (h : s.over) : s.enabled = false := by
  obtain h | h := h <;> simp [State.enabled, h]

/-- An event of the environment leaves the status alone (R23). -/
@[simp] theorem State.applyEvent_status (e : EnvEvent) (s : State) : (s.applyEvent e).status = s.status := by
  cases e with
  | byteIn b => rw [State.applyEvent]; split <;> rfl
  | _ => rfl

/-- A run of one step more is the step, then the rest of the run. -/
theorem run_succ_of_step {s t : State} (h : step s = .next t) (k : Nat) :
    Host.Core.run Sys2Proof.core (k + 1) s = Host.Core.run Sys2Proof.core k t := by
  have hstep : Sys2Proof.core.step s = .next t := h
  simp only [Host.Core.run, hstep]

/-- A step that changes nothing changes nothing any number of times. -/
theorem run_of_step_eq_self {s : State} (h : step s = .next s) (k : Nat) :
    Host.Core.run Sys2Proof.core k s = .next s := by
  induction k with
  | zero => rfl
  | succ k ih => rw [run_succ_of_step h, ih]

/-- Settles O11 (R22, R91): no step is enabled once the run is over, and an event leaves it over. -/
theorem haltedAndFaultAreAbsorbing : Obligations.HaltedAndFaultAreAbsorbing := by
  unfold Obligations.HaltedAndFaultAreAbsorbing
  intro s hover
  refine ⟨run_of_step_eq_self (step_of_not_enabled hover.not_enabled), fun k e => ?_⟩
  have hover' : (s.applyEvent e).over := by simpa [State.over] using hover
  exact run_of_step_eq_self (step_of_not_enabled hover'.not_enabled) k

/-! ### The registers' writers (R10, R11, R14, R17) -/

section
variable {i : Instr} {s : State}

/-- `AC` has no writers but these seven (R10). -/
theorem effect_ac_of_opcode_notMem (h : i.opcode ∉ [0x1#4, 0x3, 0x4, 0x5, 0xA, 0xB, 0xD]) : (effect i s).ac = s.ac := by
  cases i with
  | load x | add x | subt x | input | clear | addi x | loadi x => simp [Instr.opcode] at h
  | _ => rfl

/-- `InREG` and the input stream have the one writer `Input` (R17). -/
theorem effect_input_of_opcode_ne (h : i.opcode ≠ 0x5) :
    (effect i s).inReg = s.inReg ∧ (effect i s).input = s.input := by
  cases i with
  | input => exact absurd rfl h
  | _ => exact ⟨rfl, rfl⟩

/-- `OutREG` and the output stream have the one writer `Output` (R17). -/
theorem effect_output_of_opcode_ne (h : i.opcode ≠ 0x6) :
    (effect i s).outReg = s.outReg ∧ (effect i s).output = s.output := by
  cases i with
  | output => exact absurd rfl h
  | _ => exact ⟨rfl, rfl⟩

/-- `PC` keeps the value of the fetch outside the control transfers (R11). -/
theorem effect_pc_of_opcode_notMem (h : i.opcode ∉ [0x0#4, 0x8, 0x9, 0xC]) : (effect i s).pc = s.pc := by
  cases i with
  | jns x | skipcond x | jump x | jumpi x => simp [Instr.opcode] at h
  | _ => rfl

/-- `Skipcond` leaves `PC` where the fetch put it or skips one word (R123). -/
theorem effect_pc_of_skipcond (h : i.opcode = 0x8) : (effect i s).pc = s.pc ∨ (effect i s).pc = nextAddr s.pc := by
  have hskip : i = .skipcond i.field := by
    rw [← instrOf_opcode_field i, h]
    rfl
  rw [hskip, effect]
  exact (ite_eq_or_eq _ _ _).symm

end

/-- The number of the next address, modulo 4096 (R36). -/
theorem nextAddr_toNat (a : Addr) : (nextAddr a).toNat = (a.toNat + 1) % 4096 := by
  rw [nextAddr_eq_ofNat, BitVec.toNat_ofNat]

/-- An enabled step has one outcome. -/
theorem eq_effect_of_step {s t : State} (henabled : s.enabled = true) (h : step s = .next t) :
    t = (effect (decode (s.mem.read s.pc)) s.consumeAck.fetch).emitTrace := by
  rw [step_eq_next_effect henabled] at h
  cases h
  rfl

/-- Settles O13 (R10, R14, R17): each register's lemma, on the fetched state. -/
theorem eachRegisterHasItsListedWriters : Obligations.EachRegisterHasItsListedWriters := by
  unfold Obligations.EachRegisterHasItsListedWriters
  intro s t henabled hstep
  rw [eq_effect_of_step henabled hstep, ← opcode_decode]
  refine ⟨fun h => ?ac, fun h => ?input, fun h => ?output, by simp, by simp⟩
  case ac => simp [effect_ac_of_opcode_notMem h]
  case input => simp [effect_input_of_opcode_ne h]
  case output => simp [effect_output_of_opcode_ne h]

/-- Settles O14 (R11): the fetch advances `PC` by one word, and of the other instructions only `Skipcond` may add another. -/
theorem pcAdvancesByOneOutsideControlTransfer : Obligations.PcAdvancesByOneOutsideControlTransfer := by
  unfold Obligations.PcAdvancesByOneOutsideControlTransfer
  intro s t henabled hstep
  rw [eq_effect_of_step henabled hstep, ← opcode_decode]
  refine ⟨fun h => ?plain, fun h => ?skipcond⟩
  case plain => simp [effect_pc_of_opcode_notMem h, nextAddr_toNat]
  case skipcond =>
    obtain hpc | hpc := effect_pc_of_skipcond (s := s.consumeAck.fetch) h
    · exact .inl (by simp [hpc, nextAddr_toNat])
    · exact .inr (by simp [hpc, nextAddr_toNat, Nat.add_assoc])

/-! ### Memory, `MAR` and `MBR` (R34, R88, R89) -/

/-- Settles O15 (R34): where the table lists an address, that word is written and no other; where it lists none, nothing is. -/
theorem memoryChangesOnlyWhereTheTableSays : Obligations.MemoryChangesOnlyWhereTheTableSays := by
  unfold Obligations.MemoryChangesOnlyWhereTheTableSays
  intro i s t hexec
  rw [exec_eq_next_effect] at hexec
  cases hexec
  refine ⟨fun a ha => ?_, effect_mem_of_dataWrite_none⟩
  cases hwrite : dataWrite i s.mem with
  | none => rw [effect_mem_of_dataWrite_none hwrite]
  | some b =>
    obtain ⟨v, hmem⟩ := effect_mem_of_dataWrite hwrite
    have hab : a ≠ b := fun h => ha (by rw [hwrite, h])
    rw [hmem, s.mem.read_write_other v hab]

/-- Over another memory that agrees on the words listed as read, an instruction has the same update outside memory (R34). -/
theorem effect_congr_mem {i : Instr} {s : State} {m : Memory} (h : ∀ a ∈ dataReads i s.mem, m.read a = s.mem.read a) :
    { effect i { s with mem := m } with mem := (effect i s).mem } = effect i s := by
  cases i with
  | load x | add x | subt x | jumpi x =>
    have hx : m.read x = s.mem.read x := h x (List.mem_singleton.2 rfl)
    simp only [effect, hx]
  | storei x =>
    have hx : m.read x = s.mem.read x := h x (List.mem_singleton.2 rfl)
    simp only [effect, indirectAddr, directAddr, hx]
  | addi x | loadi x =>
    have hx : m.read x = s.mem.read x := h x (List.mem_cons_self ..)
    have hp : m.read (indirectAddr s.mem x) = s.mem.read (indirectAddr s.mem x) :=
      h _ (List.mem_cons_of_mem _ (List.mem_singleton.2 rfl))
    have haddr : indirectAddr m x = indirectAddr s.mem x := by rw [indirectAddr, indirectAddr, directAddr, hx]
    simp only [effect, haddr, hp]
  | _ => rfl

/-- Over such a memory an instruction writes the same address: a pointer is listed as read (R34). -/
theorem dataWrite_congr_mem {i : Instr} {m m' : Memory} (h : ∀ a ∈ dataReads i m', m.read a = m'.read a) :
    dataWrite i m = dataWrite i m' := by
  cases i with
  | storei x =>
    have hx : m.read x = m'.read x := h x (List.mem_singleton.2 rfl)
    simp only [dataWrite, indirectAddr, directAddr, hx]
  | _ => rfl

/-- Settles O16 (R34): both memories give the same update and the same address. -/
theorem effectsDependOnlyOnTheListedReads : Obligations.EffectsDependOnlyOnTheListedReads := by
  unfold Obligations.EffectsDependOnlyOnTheListedReads
  intro i s m hreads t hexec
  rw [exec_eq_next_effect] at hexec
  cases hexec
  exact ⟨_, exec_eq_next_effect _ _, effect_congr_mem hreads, dataWrite_congr_mem hreads⟩

/-- Settles O17 (R89): the table's two values are those of each instruction's update. -/
theorem marAndMbrEndAsTheTableSays : Obligations.MarAndMbrEndAsTheTableSays := by
  unfold Obligations.MarAndMbrEndAsTheTableSays
  intro i s t hexec
  rw [exec_eq_next_effect] at hexec
  cases hexec
  cases i <;> exact ⟨rfl, rfl⟩

end Sys2Proof.Machine

namespace Sys2Proof.Machine

/-! ### What execution does not depend on: scratch registers, trace, step mode (R15, R16, R178, R179) -/

/-- The old `MBR` shows in nothing that an instruction leaves but `MBR` itself (R16). -/
theorem effect_setMbr (i : Instr) (s : State) (mbr : Word) :
    ∃ mbr', effect i (s.setMbr mbr) = (effect i s).setMbr mbr' := by
  cases i <;> exact ⟨_, rfl⟩

/-- The fetch overwrites `MAR` and `IR`, and leaves of the old scratch registers only `MBR` (R80). -/
theorem fetch_consumeAck_scratch (s : State) (mar : Addr) (mbr ir : Word) :
    State.fetch (State.consumeAck { s with mar := mar, mbr := mbr, ir := ir }) = s.consumeAck.fetch.setMbr mbr := by
  rw [State.fetch_consumeAck, State.fetch_consumeAck, State.setMbr]

/-- Settles O18 (R15, R16): held, both states stay as they are; enabled, the two fetched states differ in `MBR` only, and so do
the states after the execute phase. -/
theorem listedEffectsIgnoreOldScratchRegisters : Obligations.ListedEffectsIgnoreOldScratchRegisters := by
  unfold Obligations.ListedEffectsIgnoreOldScratchRegisters
  intro s t mar mbr ir hstep
  have hsame : State.enabled { s with mar := mar, mbr := mbr, ir := ir } = s.enabled := rfl
  cases henabled : s.enabled with
  | false =>
    rw [step_of_not_enabled henabled] at hstep
    cases hstep
    exact ⟨_, step_of_not_enabled (hsame.trans henabled), by simp⟩
  | true =>
    rw [eq_effect_of_step henabled hstep]
    obtain ⟨mbr', heffect⟩ := effect_setMbr (decode (s.mem.read s.pc)) s.consumeAck.fetch mbr
    refine ⟨_, step_eq_next_effect (hsame.trans henabled), ?_⟩
    rw [fetch_consumeAck_scratch, heffect]
    simp

/-- No instruction reads or writes the trace or its mode. -/
theorem effect_untraced (i : Instr) (s : State) : effect i s.untraced = (effect i s).untraced := by
  cases i <;> rfl

/-- The fetch neither reads nor writes the trace or its mode. -/
theorem fetch_consumeAck_untraced (s : State) : s.untraced.consumeAck.fetch = s.consumeAck.fetch.untraced := by
  rw [State.fetch_consumeAck, State.fetch_consumeAck]
  rfl

/-- Tracing is one update of the trace, with the condition on its mode inside. -/
theorem emitTrace_eq (s : State) :
    s.emitTrace = { s with trace := if s.traceMode then s.trace ++ [s.registers] else s.trace } := by
  rw [State.emitTrace]
  split <;> rfl

/-- A trace record is all that tracing adds. -/
theorem emitTrace_untraced (s : State) : s.emitTrace.untraced = s.untraced := by
  rw [emitTrace_eq]
  rfl

/-- A step with trace mode off passes to the same state but for the trace (R179). -/
theorem step_untraced {s t : State} (h : step s = .next t) : step s.untraced = .next t.untraced := by
  have hsame : s.untraced.enabled = s.enabled := rfl
  cases henabled : s.enabled with
  | false =>
    rw [step_of_not_enabled henabled] at h
    cases h
    exact step_of_not_enabled (hsame.trans henabled)
  | true =>
    rw [eq_effect_of_step henabled h, step_eq_next_effect (hsame.trans henabled), emitTrace_untraced,
      fetch_consumeAck_untraced, effect_untraced]
    rfl

/-- Settles O19 (R179): by induction on the number of steps, with `step_untraced` for each. -/
theorem tracingHasNoEffectOnExecution : Obligations.TracingHasNoEffectOnExecution := by
  unfold Obligations.TracingHasNoEffectOnExecution
  intro k s t hrun
  induction k generalizing s with
  | zero =>
    cases hrun
    rfl
  | succ k ih =>
    obtain ⟨u, hstep⟩ := everyStepAnswersANextState s
    rw [run_succ_of_step hstep] at hrun
    rw [run_succ_of_step (step_untraced hstep)]
    exact ih u hrun

/-- Settles O20 (R179): no instruction touches the trace, so the completed step's one record is all that is added. -/
theorem eachCompletedStepEmitsOneTraceRecord : Obligations.EachCompletedStepEmitsOneTraceRecord := by
  unfold Obligations.EachCompletedStepEmitsOneTraceRecord
  intro s t hstep
  cases henabled : s.enabled with
  | false =>
    rw [step_of_not_enabled henabled] at hstep
    cases hstep
    rfl
  | true =>
    rw [eq_effect_of_step henabled hstep]
    simp [State.registers]

/-- No instruction reads or writes step mode or the tokens. -/
theorem effect_stepGate (i : Instr) (s : State) (mode : Bool) (n : Nat) :
    effect i { s with stepMode := mode, stepAcks := n } = { effect i s with stepMode := mode, stepAcks := n } := by
  cases i <;> rfl

/-- The trace record shows neither step mode nor the tokens. -/
theorem emitTrace_stepGate (s : State) (mode : Bool) (n : Nat) :
    State.emitTrace { s with stepMode := mode, stepAcks := n } =
      { s.emitTrace with stepMode := mode, stepAcks := n } := by
  rw [emitTrace_eq, emitTrace_eq]
  rfl

/-- Settles O21 (R178): a token opens the gate and is the one consumed; beside it the step is the same. With none the gate is
shut. -/
theorem stepModeOnlyGatesTheStep : Obligations.StepModeOnlyGatesTheStep := by
  unfold Obligations.StepModeOnlyGatesTheStep
  intro s henabled hmode
  obtain ⟨hrun, -, hinput⟩ := s.enabled_iff.1 henabled
  refine ⟨fun n t hstep => ?token, hrun, ?noToken⟩
  case token =>
    have hgated : State.enabled { s with stepMode := true, stepAcks := n + 1 } = true :=
      (State.enabled_iff _).2 ⟨hrun, fun _ => Nat.succ_pos n, hinput⟩
    have hfetch : State.fetch (State.consumeAck { s with stepMode := true, stepAcks := n + 1 }) =
        { s.consumeAck.fetch with stepMode := true, stepAcks := n } := by
      rw [State.fetch_consumeAck, State.fetch_consumeAck]
      rfl
    rw [step_eq_next_effect hgated, hfetch, effect_stepGate, emitTrace_stepGate, eq_effect_of_step henabled hstep]
  case noToken => simp [State.enabled, State.gateOpen]

/-! ### Events (R23, R173) -/

/-- A byte that arrives is one update of the input stream, with the condition that it has not ended inside (R133, log 20). -/
theorem applyEvent_byteIn (b : Byte) (s : State) :
    s.applyEvent (.byteIn b) = { s with input := if s.inputEnded then s.input else s.input ++ [b] } := by
  rw [State.applyEvent]
  split <;> rfl

/-- An event changes the input stream, its end and the tokens at most (R23). -/
theorem applyEvent_eq (e : EnvEvent) (s : State) :
    s.applyEvent e = { s with
      input := (s.applyEvent e).input, inputEnded := (s.applyEvent e).inputEnded, stepAcks := (s.applyEvent e).stepAcks } := by
  cases e with
  | byteIn b => rw [applyEvent_byteIn]
  | _ => rfl

/-- An event never takes a byte or a token away, and after the end no byte arrives (R133). -/
theorem applyEvent_grows (e : EnvEvent) (s : State) :
    s.input <+: (s.applyEvent e).input ∧ s.stepAcks ≤ (s.applyEvent e).stepAcks ∧
    (s.inputEnded = true → (s.applyEvent e).inputEnded = true ∧ (s.applyEvent e).input = s.input) := by
  cases e with
  | byteIn b => cases hended : s.inputEnded <;> simp [applyEvent_byteIn, hended]
  | inputEnds => simp [State.applyEvent]
  | stepAck => simp [State.applyEvent]

/-- A step keeps the parameters of the run (R7). -/
theorem step_parameters {s t : State} (h : step s = .next t) :
    t.undefPolicy = s.undefPolicy ∧ t.stepMode = s.stepMode ∧ t.traceMode = s.traceMode ∧ t.inEofByte = s.inEofByte := by
  cases henabled : s.enabled with
  | false =>
    rw [step_of_not_enabled henabled] at h
    cases h
    exact ⟨rfl, rfl, rfl, rfl⟩
  | true =>
    rw [eq_effect_of_step henabled h]
    simp

/-- Settles O23 (R7, R23): an event changes three fields at most and only lets them grow; the parameters are kept by every step and
every event of a run. -/
theorem eventsTouchOnlyStreamsAndParametersAreFixed : Obligations.EventsTouchOnlyStreamsAndParametersAreFixed := by
  unfold Obligations.EventsTouchOnlyStreamsAndParametersAreFixed
  refine ⟨fun e s => ⟨?frame, applyEvent_grows e s⟩, fun s t hreach => ?parameters⟩
  case frame => rw [applyEvent_eq]
  case parameters =>
    induction hreach with
    | here => exact ⟨rfl, rfl, rfl, rfl⟩
    | step _ hstep ih =>
      obtain ⟨hpolicy, hstepMode, htraceMode, heof⟩ := step_parameters hstep
      rwa [hpolicy, hstepMode, htraceMode, heof]
    | event e _ ih =>
      rw [applyEvent_eq]
      exact ih

/-- An event leaves an enabled step enabled (R173). -/
theorem applyEvent_enabled (e : EnvEvent) {s : State} (h : s.enabled = true) : (s.applyEvent e).enabled = true := by
  obtain ⟨hrun, hgate, hinput⟩ := s.enabled_iff.1 h
  obtain ⟨hbytes, htokens, hend⟩ := applyEvent_grows e s
  rw [State.enabled_iff]
  rw [applyEvent_eq]
  refine ⟨hrun, fun hmode => (hgate hmode).trans_le htokens, fun hop => ?_⟩
  obtain hbyte | hended := hinput hop
  · exact .inl (hbytes.ne_nil hbyte)
  · exact .inr (hend hended).1

/-- An `Input` that has its byte takes the same one before an event and after it: a byte arrives at the other end of the
stream. -/
theorem effect_input_applyEvent (e : EnvEvent) {s : State} (h : s.inputReady = true) :
    effect .input (s.applyEvent e) = (effect .input s).applyEvent e := by
  cases e with
  | byteIn b =>
    cases hended : s.inputEnded with
    | true => simp [effect, State.applyEvent, hended]
    | false =>
      obtain ⟨c, rest, hinput⟩ : ∃ c rest, s.input = c :: rest := by
        simpa [State.inputReady, hended, List.ne_nil_iff_exists_cons] using h
      simp [effect, State.applyEvent, State.inputReady, State.nextByte, hended, hinput]
  | inputEnds =>
    have hready : (s.applyEvent .inputEnds).inputReady = true := by simp [State.applyEvent, State.inputReady]
    rw [effect, effect, if_pos h, if_pos h, if_pos hready, if_pos hready]
    rfl
  | stepAck => rfl

/-- An event and an execute phase commute, if an `Input` has its byte (R173). -/
theorem effect_applyEvent (e : EnvEvent) {i : Instr} {s : State} (h : i = .input → s.inputReady = true) :
    effect i (s.applyEvent e) = (effect i s).applyEvent e := by
  cases i with
  | input => exact effect_input_applyEvent e (h rfl)
  | _ =>
    cases e with
    | byteIn b =>
      rw [applyEvent_byteIn, applyEvent_byteIn]
      rfl
    | _ => rfl

/-- An event and a trace record commute: the record shows nothing that the environment changes. -/
theorem emitTrace_applyEvent (e : EnvEvent) (s : State) : (s.applyEvent e).emitTrace = s.emitTrace.applyEvent e := by
  rw [emitTrace_eq, emitTrace_eq]
  cases e with
  | byteIn b => rw [applyEvent_byteIn, applyEvent_byteIn]; rfl
  | _ => rfl

/-- An event and the fetch commute, if the gate has the token it consumes (R178). -/
theorem fetch_consumeAck_applyEvent (e : EnvEvent) {s : State} (h : s.stepMode = true → 0 < s.stepAcks) :
    (s.applyEvent e).consumeAck.fetch = s.consumeAck.fetch.applyEvent e := by
  rw [State.fetch_consumeAck, State.fetch_consumeAck]
  cases e with
  | byteIn b => rw [applyEvent_byteIn, applyEvent_byteIn]
  | inputEnds => rfl
  | stepAck =>
    have htokens : (if s.stepMode then s.stepAcks + 1 - 1 else s.stepAcks + 1) =
        (if s.stepMode then s.stepAcks - 1 else s.stepAcks) + 1 := by
      split
      case isTrue hmode =>
        have := h hmode
        omega
      case isFalse => rfl
    simp only [State.applyEvent]
    congr 1

/-- Settles O22 (R173): the event commutes with the fetch, the execute phase and the trace record of the enabled step, which has its
token and, for an `Input`, its byte. -/
theorem eventsCommuteWithEnabledSteps : Obligations.EventsCommuteWithEnabledSteps := by
  unfold Obligations.EventsCommuteWithEnabledSteps
  intro e s t henabled hstep
  obtain ⟨-, hgate, hinput⟩ := s.enabled_iff.1 henabled
  have henabled' := applyEvent_enabled e henabled
  have hword : (s.applyEvent e).mem.read (s.applyEvent e).pc = s.mem.read s.pc := by rw [applyEvent_eq]
  have hready : decode (s.mem.read s.pc) = .input → s.consumeAck.fetch.inputReady = true := by
    intro hdecode
    have hop : opcodeField (s.mem.read s.pc) = 5 := by rw [← opcode_decode, hdecode]; rfl
    simpa [State.inputReady] using hinput hop
  refine ⟨henabled', ?_⟩
  rw [step_eq_next_effect henabled', hword, fetch_consumeAck_applyEvent e hgate, effect_applyEvent e hready,
    emitTrace_applyEvent, eq_effect_of_step henabled hstep]

end Sys2Proof.Machine

namespace Sys2Proof.Machine

/-! ### Canonical memory and `LOAD` (R31, R192) -/

/-- Of two canonical lists that read alike at the first address of the one, the other begins no later. -/
theorem Memory.first_le_of_readAt_eq {m m' : Memory} {lo lo' k k' : Nat} {v v' : Word}
    (hm : Memory.wfFrom lo ((k, v) :: m) = true) (hm' : Memory.wfFrom lo' ((k', v') :: m') = true)
    (h : Memory.readAt ((k, v) :: m) k = Memory.readAt ((k', v') :: m') k) : k' ≤ k := by
  obtain ⟨-, -, hv, -⟩ := Memory.wfFrom_cons.1 hm
  obtain ⟨-, hk', hv', hrest'⟩ := Memory.wfFrom_cons.1 hm'
  by_contra hlt
  have hbelow : Memory.readAt ((k', v') :: m') k = Config.unlistedWord :=
    Memory.readAt_below (Memory.wfFrom_cons.2 ⟨le_refl k', hk', hv', hrest'⟩) (Nat.lt_of_not_le hlt)
  rw [hbelow, Memory.readAt, if_pos rfl] at h
  exact hv h

/-- Two canonical lists that read alike are the same list: the first address of each is where it first reads as something
listed. -/
theorem Memory.eq_of_wfFrom {m m' : Memory} {lo : Nat} (hm : Memory.wfFrom lo m = true) (hm' : Memory.wfFrom lo m' = true)
    (h : ∀ n, n < Config.memWords → Memory.readAt m n = Memory.readAt m' n) : m = m' := by
  induction m generalizing m' lo with
  | nil =>
    cases m' with
    | nil => rfl
    | cons c' m' =>
      obtain ⟨k', v'⟩ := c'
      obtain ⟨-, hk', hv', -⟩ := Memory.wfFrom_cons.1 hm'
      exact absurd (h k' hk').symm (by simpa [Memory.readAt] using hv')
  | cons c m ih =>
    obtain ⟨k, v⟩ := c
    obtain ⟨-, hk, hv, hrest⟩ := Memory.wfFrom_cons.1 hm
    cases m' with
    | nil => exact absurd (h k hk) (by simpa [Memory.readAt] using hv)
    | cons c' m' =>
      obtain ⟨k', v'⟩ := c'
      obtain ⟨-, hk', -, hrest'⟩ := Memory.wfFrom_cons.1 hm'
      obtain rfl : k = k' := le_antisymm (Memory.first_le_of_readAt_eq hm' hm (h k' hk').symm)
        (Memory.first_le_of_readAt_eq hm hm' (h k hk))
      obtain rfl : v = v' := by simpa [Memory.readAt] using h k hk
      rw [ih hrest hrest' fun n hn => ?_]
      by_cases hkn : k = n
      · subst hkn
        rw [Memory.readAt_below hrest (Nat.lt_succ_self k), Memory.readAt_below hrest' (Nat.lt_succ_self k)]
      · simpa [Memory.readAt, hkn] using h n hn

/-- Settles O25 (log 1): a write keeps the form, and the addresses of the machine are all the addresses below 4096. -/
theorem canonicalMemoryIsKeptAndUnique : Obligations.CanonicalMemoryIsKeptAndUnique := by
  unfold Obligations.CanonicalMemoryIsKeptAndUnique
  refine ⟨fun m a v => Memory.wf_write a v, fun m m' hm hm' h => Memory.eq_of_wfFrom hm hm' fun n hn => ?_⟩
  have hread := h (BitVec.ofNat 12 n)
  rwa [Memory.read, Memory.read, BitVec.toNat_ofNat, Nat.mod_eq_of_lt (show n < 2 ^ 12 from hn)] at hread

/-- What memory reads after words were placed from an address upward: the words there, the earlier content elsewhere (R31). -/
theorem Memory.readAt_writeFrom (m : Memory) (n a : Nat) (ws : List Word) :
    Memory.readAt (Memory.writeFrom m n ws) a =
      if n ≤ a then (ws[a - n]?).getD (Memory.readAt m a) else Memory.readAt m a := by
  induction ws generalizing m n with
  | nil => simp [Memory.writeFrom]
  | cons w ws ih =>
    rw [Memory.writeFrom, ih, Memory.readAt_writeAt]
    obtain hlt | rfl | hgt := Nat.lt_trichotomy a n
    · rw [if_neg (by omega), if_neg (by omega), if_neg (by omega)]
    · rw [if_neg (by omega), if_pos rfl, if_pos (le_refl a), Nat.sub_self]
      rfl
    · rw [if_pos (by omega), if_neg (by omega), if_pos (by omega)]
      obtain ⟨d, rfl⟩ := Nat.exists_eq_add_of_lt hgt
      rw [show n + d + 1 - (n + 1) = d by omega, show n + d + 1 - n = d + 1 by omega, List.getElem?_cons_succ]

/-- `LOAD` succeeds for at most 4096 words (R192). -/
theorem load_eq_ok {fill : Memory} {image : List Word} (h : image.length ≤ 4096) :
    load fill image = .ok (Memory.writeFrom fill 0 image) :=
  if_pos h

/-- `LOAD` refuses more than 4096 words (R192). -/
theorem load_eq_error {fill : Memory} {image : List Word} (h : 4096 < image.length) : load fill image = .error .tooLarge :=
  if_neg (Nat.not_le_of_lt h)

/-- Settles O46 (R31, R192): words placed from 0 upward are read back by `Memory.readAt_writeFrom`. -/
theorem loadPlacesTheImageFromZeroUpward : Obligations.LoadPlacesTheImageFromZeroUpward := by
  unfold Obligations.LoadPlacesTheImageFromZeroUpward
  refine fun fill image => ⟨load_eq_error, fun hfits => ⟨_, load_eq_ok hfits, fun hwf => load_wf hwf (load_eq_ok hfits), ?_⟩⟩
  intro a
  rw [Memory.read, Memory.read, Memory.readAt_writeFrom, if_pos (Nat.zero_le _), Nat.sub_zero]

/-! ### Reset (R24, R190) -/

/-- A running state without a fault record meets the invariant when its memory is canonical. -/
theorem State.Invariant.of_run {s : State} (hmem : s.mem.wf = true) (hrun : s.status = .run) (hrec : s.faultInfo = none) :
    s.Invariant := by
  refine ⟨hmem, ?_, ?_, ?_⟩ <;> simp [hrun, hrec]

/-- Settles O28 (R24, R190): a reset leaves `STATUS = RUN` and no record, and memory as it was. -/
theorem resetMeetsTheInvariant : Obligations.ResetMeetsTheInvariant := by
  unfold Obligations.ResetMeetsTheInvariant
  exact ⟨.of_run reset_mem_wf rfl rfl, fun r p m input ended hmem => .of_run hmem rfl rfl⟩

/-- A run that starts is a reset over what `LOAD` gives (R191). -/
theorem start_eq_ok {r : RegReset} {p : RunParams} {fill : Memory} {image : List Word} {input : List Byte} {ended : Bool}
    {s : State} (h : start r p fill image input ended = .ok s) :
    ∃ m, load fill image = .ok m ∧ s = resetWith r p m input ended := by
  unfold start at h
  cases hload : load fill image with
  | error e =>
    rw [hload] at h
    cases h
  | ok m =>
    rw [hload] at h
    cases h
    exact ⟨m, rfl, rfl⟩

/-- Settles O45 (R24, R190, R191): the values are those that `resetWith` writes, whatever the open ones are. -/
theorem resetLeavesWhatTheSpecGives : Obligations.ResetLeavesWhatTheSpecGives := by
  unfold Obligations.ResetLeavesWhatTheSpecGives
  refine ⟨⟨rfl, rfl, rfl, rfl, rfl, rfl, rfl⟩, fun r p fill image input ended s hstart => ?_⟩
  obtain ⟨m, hload, rfl⟩ := start_eq_ok hstart
  exact ⟨rfl, rfl, rfl, rfl, rfl, rfl, hload⟩

/-! ### The invariant along a run (R14, R22, R91, R170) -/

/-- Every instruction keeps memory canonical. -/
theorem effect_mem_wf (i : Instr) {s : State} (h : s.mem.wf = true) : (effect i s).mem.wf = true := by
  cases hwrite : dataWrite i s.mem with
  | none => rwa [effect_mem_of_dataWrite_none hwrite]
  | some a =>
    obtain ⟨v, hmem⟩ := effect_mem_of_dataWrite hwrite
    rw [hmem]
    exact Memory.wf_write a v h

/-- A trace record changes nothing that the invariant speaks of. -/
theorem State.Invariant.emitTrace {s : State} (h : s.Invariant) : s.emitTrace.Invariant := by
  rw [emitTrace_eq]
  obtain ⟨hcanonical, hrecord, hfaulted, hhalted⟩ := h
  exact ⟨hcanonical, hrecord, hfaulted, hhalted⟩

/-- An event changes nothing that the invariant speaks of. -/
theorem State.Invariant.applyEvent {s : State} (h : s.Invariant) (e : EnvEvent) : (s.applyEvent e).Invariant := by
  rw [applyEvent_eq]
  obtain ⟨hcanonical, hrecord, hfaulted, hhalted⟩ := h
  exact ⟨hcanonical, hrecord, hfaulted, hhalted⟩

/-- A running state that meets the invariant has no fault record (R170). -/
theorem State.Invariant.faultInfo_eq_none {s : State} (h : s.Invariant) (hrun : s.status = .run) : s.faultInfo = none := by
  have hsome : s.faultInfo.isSome = false := by
    rw [← Bool.not_eq_true, ← h.record, hrun]
    decide
  exact Option.isNone_iff_eq_none.1 (Option.isSome_eq_false_iff.1 hsome)

/-- The execute phase brings the invariant about from the state that the fetch leaves: one that runs without a record, with the
word at `MAR` in `IR` and `PC` just behind it. -/
theorem effect_invariant {s : State} (hmem : s.mem.wf = true) (hrun : s.status = .run) (hrec : s.faultInfo = none)
    (hpc : s.pc = nextAddr s.mar) (hir : s.mem.read s.mar = s.ir) : (effect (decode s.ir) s).Invariant := by
  have hmem' := effect_mem_wf (decode s.ir) hmem
  obtain ⟨hop, heffect⟩ | ⟨hop, hpolicy, heffect⟩ | ⟨-, -, hstatus, hfault⟩ := effect_outcomes (decode s.ir) s
  case inl =>
    rw [opcode_decode] at hop
    rw [heffect]
    exact ⟨hmem, by simp [hrec], by simp [hrec], fun _ => ⟨hop, hpc, hir⟩⟩
  case inr.inl =>
    rw [opcode_decode] at hop
    rw [heffect]
    refine ⟨hmem, by simp, fun f hf => ?_, by simp⟩
    cases hf
    exact ⟨rfl, rfl, hop, hpolicy, hpc, hir⟩
  case inr.inr => exact .of_run hmem' (hstatus.trans hrun) (hfault.trans hrec)

/-- Settles O27 (R14, R22, R91, R170): an enabled step finds the machine running, so without a record, and its fetch leaves the
state that `effect_invariant` asks for; a step that is not enabled and an event change nothing the invariant speaks of. -/
theorem stepsAndEventsKeepTheInvariant : Obligations.StepsAndEventsKeepTheInvariant := by
  unfold Obligations.StepsAndEventsKeepTheInvariant
  refine fun s hinv => ⟨fun t hstep => ?_, hinv.applyEvent⟩
  cases henabled : s.enabled with
  | false =>
    rw [step_of_not_enabled henabled] at hstep
    cases hstep
    exact hinv
  | true =>
    obtain ⟨hrun, -, -⟩ := s.enabled_iff.1 henabled
    have hrec := hinv.faultInfo_eq_none hrun
    have hfetched : (effect (decode s.consumeAck.fetch.ir) s.consumeAck.fetch).Invariant :=
      effect_invariant (by simpa using hinv.canonical) (by simpa using hrun) (by simpa using hrec) (by simp) (by simp)
    rw [eq_effect_of_step henabled hstep]
    simpa using hfetched.emitTrace

/-- A step under policy `nop` does not come to `FAULT` (R134). -/
theorem step_status_ne_fault {s t : State} (hpolicy : s.undefPolicy = .nop) (hstatus : s.status ≠ .fault)
    (hstep : step s = .next t) : t.status ≠ .fault := by
  cases henabled : s.enabled with
  | false =>
    rw [step_of_not_enabled henabled] at hstep
    cases hstep
    exact hstatus
  | true =>
    intro hfault
    obtain ⟨⟨hfatal, -⟩, -⟩ := (step_eq_next_fault_iff henabled).1 ⟨hstep, hfault⟩
    rw [hpolicy] at hfatal
    cases hfatal

/-- Settles O29 (R134, R170): by induction on the run; the policy stays `nop`, and neither a step nor an event comes to `FAULT`. -/
theorem runsUnderPolicyNopAreSafe : Obligations.RunsUnderPolicyNopAreSafe := by
  unfold Obligations.RunsUnderPolicyNopAreSafe
  intro s hpolicy hstatus t hreach
  induction hreach with
  | here => exact hstatus
  | @step t u hreach hstep ih =>
    obtain ⟨-, hparameters⟩ := eventsTouchOnlyStreamsAndParametersAreFixed
    obtain ⟨hpolicyKept, -⟩ := hparameters s t hreach
    exact step_status_ne_fault (hpolicyKept.trans hpolicy) ih hstep
  | event e _ ih => rwa [State.applyEvent_status]

/-! ### Waiting, calling, placing a word (R81, R124, log 8) -/

/-- Settles O40 (R81, R130): the one enabling condition that fails is that of the input, and either event makes it hold. -/
theorem inputWaitsForItsByte : Obligations.InputWaitsForItsByte := by
  unfold Obligations.InputWaitsForItsByte
  intro s hrun hmode hop hempty hended
  have hheld : s.enabled = false := by
    rw [← Bool.not_eq_true, State.enabled_iff]
    simp [hop, hempty, hended]
  refine ⟨⟨hrun, hheld⟩, step_of_not_enabled hheld, ?_, fun b => ?_⟩
  · exact (State.enabled_iff _).2 ⟨hrun, by simp [State.applyEvent, hmode], fun _ => .inr rfl⟩
  · rw [applyEvent_byteIn, State.enabled_iff]
    exact ⟨hrun, by simp [hmode], by simp [hempty, hended]⟩

/-- Settles O44 (R124): `JnS X` leaves the return address in the slot and `JumpI X` goes where the slot says; the 12 bits of an
address survive the way through a word. -/
theorem aSubroutineReturnsBehindItsCall : Obligations.ASubroutineReturnsBehindItsCall := by
  unfold Obligations.ASubroutineReturnsBehindItsCall
  intro x s t u v hs hcall hst hu hreturn hslot huv
  have ht := eq_effect_of_step hs hst
  have hv := eq_effect_of_step hu huv
  rw [hcall, decodeEncodeGivesBackTheInstruction] at ht
  rw [hreturn, decodeEncodeGivesBackTheInstruction] at hv
  have hreadSlot : u.mem.read x = zextAddr (nextAddr s.pc) := by
    rw [hslot, ht]
    simp [effect, Memory.read_write_same]
  have htarget : trunc12 (zextAddr (nextAddr s.pc)) = nextAddr s.pc :=
    BitVec.setWidth_setWidth_of_le _ (by decide)
  refine ⟨by simp [ht, effect], by simp [ht, effect], ?_, by simp [hv, effect], by simp [hv, effect]⟩
  simp [hv, effect, hreadSlot, htarget]

end Sys2Proof.Machine

namespace Sys2Proof.Machine

/-! ### A word placed for the next step (log 8) -/

/-- The gate is open after the holds are lifted: it was, or there is one token now. -/
theorem liftHolds_gateOpen (s : State) : s.liftHolds.gateOpen = true := by
  by_cases hgate : s.gateOpen = true
  · rw [State.liftHolds, if_pos hgate]
    exact hgate
  · rw [State.liftHolds, if_neg hgate]
    simp [State.gateOpen]

/-- After the holds are lifted an `Input` about to be fetched has its byte, or the stream has ended. -/
theorem liftHolds_inputReady {s : State} (h : isInputWord (s.mem.read s.pc) = true) : s.liftHolds.inputReady = true := by
  cases hready : s.inputReady with
  | true =>
    rw [State.liftHolds, h, hready, if_neg (by decide)]
    exact hready
  | false =>
    rw [State.liftHolds, h, hready, if_pos (by decide)]
    simp [State.inputReady]

/-- A step is enabled after the holds are lifted. -/
theorem liftHolds_enabled (s : State) : s.liftHolds.enabled = true := by
  have hstatus : s.liftHolds.status = .run := rfl
  have hword : s.liftHolds.mem.read s.liftHolds.pc = s.mem.read s.pc := rfl
  rw [State.enabled, liftHolds_gateOpen, hstatus, hword]
  cases hinput : isInputWord (s.mem.read s.pc) with
  | true => simp [liftHolds_inputReady hinput]
  | false => simp

/-- Where nothing holds the step there is nothing to lift. -/
theorem liftHolds_eq_self {s : State} (hrun : s.status = .run) (hrec : s.faultInfo = none) (hgate : s.gateOpen = true)
    (hinput : isInputWord (s.mem.read s.pc) = true → s.inputReady = true) : s.liftHolds = s := by
  have hlift : ¬ (isInputWord (s.mem.read s.pc) && !s.inputReady) = true := by simpa using hinput
  rw [State.liftHolds, if_pos hgate, if_neg hlift, ← hrun, ← hrec]

/-- Settles O48 (log 8): the placed word is read at `PC` after the write, which changes no other word; with the holds lifted the
step is enabled, and where there was none to lift the write is all that happened. -/
theorem placedWordRunsNext : Obligations.PlacedWordRunsNext := by
  unfold Obligations.PlacedWordRunsNext
  intro s w hw
  have hread : (s.withFetchWord 16 w).mem.read s.pc = BitVec.ofNat 16 (w % 2 ^ 16) := Memory.read_write_same ..
  have hmod : w % 2 ^ 16 = w := Nat.mod_eq_of_lt hw
  refine ⟨liftHolds_enabled _, rfl, ?decodes, ?placed, fun a ha => Memory.read_write_other _ _ ha, ?memoryOnly⟩
  case decodes =>
    rw [hread]
    rfl
  case placed => rw [hread, BitVec.toNat_ofNat, hmod, hmod]
  case memoryOnly =>
    intro hrun hrec hgate hinput
    rw [State.withFetchWord, hmod]
    refine liftHolds_eq_self hrun hrec (by simpa [State.gateOpen, imp_iff_not_or] using hgate) ?_
    rw [Memory.read_write_same]
    exact hinput

end Sys2Proof.Machine

namespace Sys2Proof.Machine

/-! ### Arithmetic and the selectors (R114, R123) -/

/-- The signed sum is the balanced remainder of the exact one (R114). -/
theorem signedValue_add16 (a b : Word) : signedValue (add16 a b) = (a.toInt + b.toInt).bmod 65536 :=
  BitVec.toInt_add a b

/-- The signed difference is the balanced remainder of the exact one (R114). -/
theorem signedValue_sub16 (a b : Word) : signedValue (sub16 a b) = (a.toInt - b.toInt).bmod 65536 :=
  BitVec.toInt_sub

/-- The signed numbers of 16 bits. -/
theorem word_toInt_bounds (a : Word) : -32768 ≤ a.toInt ∧ a.toInt ≤ 32767 := by
  have hlow := a.le_toInt
  have hhigh := a.toInt_lt
  omega

/-- The balanced remainder of a number that is out of range once at most: the number, or 65536 off. -/
theorem bmod_65536 {z : Int} (hlow : -65536 ≤ z) (hhigh : z ≤ 65536) :
    (-32768 ≤ z ∧ z ≤ 32767 → z.bmod 65536 = z) ∧ (z > 32767 → z.bmod 65536 = z - 65536) ∧
    (z < -32768 → z.bmod 65536 = z + 65536) := by
  rw [Int.bmod_def]
  split <;> omega

/-- Settles O34 (R114): the unsigned readings are those of `add16_eq_ofNat` and `sub16_eq_ofNat`, the signed ones are balanced
remainders. -/
theorem arithmeticWrapsModulo65536 : Obligations.ArithmeticWrapsModulo65536 := by
  unfold Obligations.ArithmeticWrapsModulo65536
  intro a b
  have ha := word_toInt_bounds a
  have hb := word_toInt_bounds b
  rw [signedValue_add16, signedValue_sub16, add16_eq_ofNat, sub16_eq_ofNat, BitVec.toNat_ofNat, BitVec.toNat_ofNat]
  obtain ⟨haddExact, haddAbove, haddBelow⟩ := bmod_65536 (z := a.toInt + b.toInt) (by omega) (by omega)
  obtain ⟨hsubExact, hsubAbove, hsubBelow⟩ := bmod_65536 (z := a.toInt - b.toInt) (by omega) (by omega)
  exact ⟨rfl, rfl, haddExact, haddAbove, haddBelow, hsubExact, hsubAbove, hsubBelow⟩

/-- The signed value is negative exactly when bit 15 is set (R8, D12). -/
theorem signedValue_neg_iff (v : Word) : signedValue v < 0 ↔ v.getLsbD 15 = true := by
  rw [signedValue, BitVec.toInt_neg_iff, ← BitVec.msb_eq_getLsbD_last, BitVec.msb_eq_decide, decide_eq_true_iff]
  omega

/-- The signed value is positive exactly when bit 15 is clear and the word is not 0. -/
theorem signedValue_pos_iff (v : Word) : 0 < signedValue v ↔ v.getLsbD 15 = false ∧ v.toNat ≠ 0 := by
  have hneg := signedValue_neg_iff v
  have hzero : signedValue v = 0 ↔ v.toNat = 0 := by
    rw [signedValue, BitVec.toInt_eq_toNat_bmod, Int.bmod_def]
    have := v.isLt
    split <;> omega
  rw [← Bool.not_eq_true, ← hneg, Ne, ← hzero]
  omega

/-- Settles O38 (R123): `skipCondition_iff` gives each selector's condition, and bit 15 the sign; a word is 0, or has bit 15 set, or
neither, and never two of these. -/
theorem exactlyOneSelectorHolds : Obligations.ExactlyOneSelectorHolds := by
  unfold Obligations.ExactlyOneSelectorHolds
  intro v
  have h0 : skipCondition 0 v = v.getLsbD 15 := by
    rw [Bool.eq_iff_iff, skipCondition_iff, ← signedValue_neg_iff]
    simp
  have h1 : skipCondition 1 v = true ↔ v.toNat = 0 := by
    have hzero : v = 0 ↔ v.toNat = 0 := BitVec.toNat_inj.symm
    rw [skipCondition_iff, ← hzero]
    simp
  have h2 : skipCondition 2 v = true ↔ v.getLsbD 15 = false ∧ v.toNat ≠ 0 := by
    rw [skipCondition_iff, ← signedValue_pos_iff]
    simp
  refine ⟨h0, h1, h2, rfl, ?_⟩
  by_cases hzero : v.toNat = 0
  · obtain rfl : v = 0 := BitVec.eq_of_toNat_eq hzero
    decide
  · cases hsign : v.getLsbD 15 <;> simp_all

end Sys2Proof.Machine

namespace Sys2Proof.Machine

/-! ### The image file (R31, D18) -/

/-- A word is the bytes 15..8 before the bytes 7..0. -/
theorem highByte_append_lowByte (w : Word) : w.extractLsb' 8 8 ++ w.extractLsb' 0 8 = w := by
  rw [BitVec.extractLsb'_append_extractLsb'_eq_extractLsb' (by decide)]
  exact BitVec.extractLsb'_eq_self

/-- The two bytes of a word give it back, in the order they were cut in (D18). -/
theorem wordOfBytes_bytesOfWord (order : ByteOrder) (w : Word) :
    ∃ a b, bytesOfWord order w = [a, b] ∧ wordOfBytes order a b = w := by
  cases order <;> exact ⟨_, _, rfl, highByte_append_lowByte w⟩

/-- Two bytes are cut again from the word they make (D18). -/
theorem bytesOfWord_wordOfBytes (order : ByteOrder) (a b : Byte) : bytesOfWord order (wordOfBytes order a b) = [a, b] := by
  have hhigh (x y : Byte) : (x ++ y : Word).extractLsb' 8 8 = x := BitVec.extractLsb'_append_eq_left
  have hlow (x y : Byte) : (x ++ y : Word).extractLsb' 0 8 = y := BitVec.extractLsb'_append_eq_right
  cases order <;> simp only [bytesOfWord, wordOfBytes, hhigh, hlow]

/-- The file of one word more begins with its two bytes. -/
theorem fileOfWords_cons (order : ByteOrder) (w : Word) (ws : List Word) :
    fileOfWords order (w :: ws) = bytesOfWord order w ++ fileOfWords order ws :=
  List.flatMap_cons

/-- The file of any words is cut into those words (R31). -/
theorem wordsOfFile_fileOfWords (order : ByteOrder) (ws : List Word) : wordsOfFile order (fileOfWords order ws) = .ok ws := by
  induction ws with
  | nil => rfl
  | cons w ws ih =>
    obtain ⟨a, b, hbytes, hword⟩ := wordOfBytes_bytesOfWord order w
    rw [fileOfWords_cons, hbytes, List.cons_append, List.cons_append, List.nil_append, wordsOfFile, ih, hword]

/-- An odd number of bytes is no file (log 18): two by two, one is left. -/
theorem wordsOfFile_of_odd (order : ByteOrder) :
    ∀ bytes : List Byte, bytes.length % 2 = 1 → wordsOfFile order bytes = .error .oddLength
  | [], h => absurd h (by decide)
  | [_], _ => rfl
  | a :: b :: rest, h => by
    rw [wordsOfFile, wordsOfFile_of_odd order rest (by simpa [Nat.add_assoc] using h)]

/-- An even number of bytes is the file of the words it is cut into: two by two, none is left. -/
theorem fileOfWords_of_even (order : ByteOrder) :
    ∀ bytes : List Byte, bytes.length % 2 = 0 → ∃ ws, wordsOfFile order bytes = .ok ws ∧ fileOfWords order ws = bytes
  | [], _ => ⟨[], rfl, rfl⟩
  | [_], h => absurd h (by simp)
  | a :: b :: rest, h => by
    obtain ⟨ws, hcut, hfile⟩ := fileOfWords_of_even order rest (by simpa [Nat.add_assoc] using h)
    refine ⟨wordOfBytes order a b :: ws, by rw [wordsOfFile, hcut], ?_⟩
    rw [fileOfWords_cons, bytesOfWord_wordOfBytes, hfile]
    rfl

/-- Settles O47 (R31, D18): the three lemmas, which walk the file two bytes at a time. -/
theorem imageFilesHoldTheirWords : Obligations.ImageFilesHoldTheirWords := by
  unfold Obligations.ImageFilesHoldTheirWords
  exact fun order => ⟨wordsOfFile_fileOfWords order, wordsOfFile_of_odd order, fileOfWords_of_even order⟩

/-! ### The name order and `INSERT` (R144, R146) -/

/-- Settles O49 (R146): the order is an oriented, transitive comparison that answers equal for equal names only. -/
theorem nameOrderIsAStrictTotalOrder : Obligations.NameOrderIsAStrictTotalOrder := by
  unfold Obligations.NameOrderIsAStrictTotalOrder
  have := transCmp_compareNames
  have := lawfulEqCmp_compareNames
  intro a b c
  exact ⟨Std.LawfulEqCmp.compare_eq_iff_eq, Std.OrientedCmp.gt_iff_lt.symm, Std.TransCmp.lt_trans⟩

/-- When `INSERT` succeeds, and the table it then gives (R144, R155). -/
theorem insert_eq_ok_iff {nameMax : Nat} {t t' : SymbolTable} {name : Name} {a : Addr} :
    t.insert nameMax name a = .ok t' ↔
      (t.phase = .collecting ∧ nameOk nameMax name = true ∧ name ∉ t.entries.map (·.name) ∧ t.entries.length < 4096) ∧
        t' = { t with entries := t.entries ++ [⟨name, a⟩] } := by
  have hnew : t.entries.any (fun e => e.name == name) = true ↔ name ∈ t.entries.map (·.name) := by simp
  rw [← hnew, SymbolTable.insert, Config.symCapacity]
  split_ifs with hphase hname hdup hfull
  · exact ⟨nofun, fun ⟨⟨h, _⟩, _⟩ => absurd h hphase⟩
  · exact ⟨nofun, fun ⟨⟨_, h, _⟩, _⟩ => by simp [h] at hname⟩
  · exact ⟨nofun, fun ⟨⟨_, _, h, _⟩, _⟩ => absurd hdup h⟩
  · exact ⟨nofun, fun ⟨⟨_, _, _, h⟩, _⟩ => absurd hfull (Nat.not_le_of_lt h)⟩
  · have hall : t.phase = .collecting ∧ nameOk nameMax name = true ∧
        ¬ t.entries.any (fun e => e.name == name) = true ∧ t.entries.length < 4096 :=
      ⟨by simpa using hphase, by simpa using hname, hdup, Nat.lt_of_not_le hfull⟩
    rw [Except.ok.injEq, and_iff_right hall, eq_comm]

/-- `INSERT` keeps the table's invariant (R140, R141). -/
theorem SymbolTable.Invariant.insert {nameMax : Nat} {t t' : SymbolTable} {name : Name} {a : Addr} (h : t.Invariant)
    (hinsert : t.insert nameMax name a = .ok t') : t'.Invariant := by
  obtain ⟨⟨hphase, -, hnew, hroom⟩, rfl⟩ := insert_eq_ok_iff.1 hinsert
  obtain ⟨-, huniq, -⟩ := h
  refine ⟨?capacity, ?unique, fun hfinal => ?notFinal⟩
  case capacity =>
    rw [List.length_append]
    exact hroom
  case unique =>
    rw [UniqueNames, List.map_append]
    simpa using huniq.concat hnew
  case notFinal =>
    rw [hphase] at hfinal
    cases hfinal

/-- Settles O50 (R140, R144, R155): `insert_eq_ok_iff` says when it succeeds and with which table. -/
theorem insertAppendsANewSymbolOrRefuses : Obligations.InsertAppendsANewSymbolOrRefuses := by
  unfold Obligations.InsertAppendsANewSymbolOrRefuses
  refine fun nameMax t name a => ⟨⟨?only, fun h => ⟨_, insert_eq_ok_iff.2 ⟨h, rfl⟩⟩⟩, fun t' hinsert => ?result⟩
  case only =>
    rintro ⟨t', hinsert⟩
    exact (insert_eq_ok_iff.1 hinsert).1
  case result =>
    obtain ⟨⟨hphase, -⟩, ht'⟩ := insert_eq_ok_iff.1 hinsert
    exact ⟨by rw [ht'], by rw [ht', hphase], fun hinv => hinv.insert hinsert⟩

end Sys2Proof.Machine

namespace Sys2Proof.Machine

/-! ### The contract of `LOOKUP` and the binary search (R147, R148) -/

/-- The contract finds a symbol that is in the table, and where names are unique it finds every one (R147). -/
theorem findSymbol_eq_some_iff {entries : List Symbol} (h : UniqueNames entries) (name : Name) (a : Addr) :
    findSymbol entries name = some a ↔ (⟨name, a⟩ : Symbol) ∈ entries := by
  induction entries with
  | nil => simp [findSymbol]
  | cons e rest ih =>
    obtain ⟨hnew, hrest⟩ := List.nodup_cons.1 h
    have ih := ih hrest
    by_cases hname : e.name = name
    · subst hname
      have hnotMem : (⟨e.name, a⟩ : Symbol) ∉ rest := fun hmem => hnew (List.mem_map.2 ⟨_, hmem, rfl⟩)
      cases e
      simp_all [findSymbol, eq_comm]
    · have hne : (⟨name, a⟩ : Symbol) ≠ e := fun he => hname (by rw [← he])
      simpa [findSymbol, hname, hne] using ih

/-- The contract answers absent exactly for the names of no symbol (R147). -/
theorem findSymbol_eq_none_iff (entries : List Symbol) (name : Name) :
    findSymbol entries name = none ↔ name ∉ entries.map (·.name) := by
  simp [findSymbol]

/-- In a table that increases by name, a lower index holds a smaller name (R141). -/
theorem SortedByName.lt_of_getElem? {entries : List Symbol} (h : SortedByName entries) {i j : Nat} {e f : Symbol}
    (hi : entries[i]? = some e) (hj : entries[j]? = some f) (hij : i < j) : compareNames e.name f.name = .lt := by
  obtain ⟨hi', rfl⟩ := List.getElem?_eq_some_iff.1 hi
  obtain ⟨hj', rfl⟩ := List.getElem?_eq_some_iff.1 hj
  exact List.pairwise_iff_getElem.1 h i j hi' hj' hij

/-- A name compares as equal with itself (R146). -/
theorem compareNames_self (name : Name) : compareNames name name = .eq := by
  have := lawfulEqCmp_compareNames
  exact Std.LawfulEqCmp.compare_eq_iff_eq.2 rfl

/-- A table that increases strictly by name has unique names (R140, R141). -/
theorem SortedByName.uniqueNames {entries : List Symbol} (h : SortedByName entries) : UniqueNames entries := by
  refine List.pairwise_map.2 (h.imp fun hlt heq => ?_)
  rw [heq, compareNames_self] at hlt
  cases hlt

/-- The range `lo..hi` brackets a name: every symbol before it is smaller and every symbol behind it is greater (R148). -/
def Brackets (entries : List Symbol) (name : Name) (lo hi : Int) : Prop :=
  ∀ (i : Nat) (e : Symbol), entries[i]? = some e →
    ((i : Int) < lo → compareNames e.name name = .lt) ∧ (hi < (i : Int) → compareNames name e.name = .lt)

/-- The whole table brackets every name. -/
theorem brackets_whole (entries : List Symbol) (name : Name) : Brackets entries name 0 (entries.length - 1) := by
  intro i e hi
  obtain ⟨hlt, -⟩ := List.getElem?_eq_some_iff.1 hi
  exact ⟨fun h => by omega, fun h => by omega⟩

/-- A name smaller than the one at an index is bracketed below the index. -/
theorem Brackets.below {entries : List Symbol} {name : Name} {lo hi mid : Int} {e : Symbol} (hsorted : SortedByName entries)
    (h : Brackets entries name lo hi) (hmid : entries[mid.toNat]? = some e) (hlt : compareNames name e.name = .lt) :
    Brackets entries name lo (mid - 1) := by
  have := transCmp_compareNames
  intro i f hi
  refine ⟨(h i f hi).1, fun hbehind => ?_⟩
  obtain heq | hgt := Nat.eq_or_lt_of_le (show mid.toNat ≤ i by omega)
  · rw [← heq, hmid] at hi
    cases hi
    exact hlt
  · exact Std.TransCmp.lt_trans hlt (hsorted.lt_of_getElem? hmid hi hgt)

/-- A name greater than the one at an index is bracketed above the index. -/
theorem Brackets.above {entries : List Symbol} {name : Name} {lo hi mid : Int} {e : Symbol} (hsorted : SortedByName entries)
    (h : Brackets entries name lo hi) (hmid : entries[mid.toNat]? = some e) (hgt : compareNames name e.name = .gt) :
    Brackets entries name (mid + 1) hi := by
  have := transCmp_compareNames
  intro i f hi
  refine ⟨fun hbefore => ?_, (h i f hi).2⟩
  have hlt : compareNames e.name name = .lt := Std.OrientedCmp.gt_iff_lt.1 hgt
  obtain heq | hless := Nat.eq_or_lt_of_le (show i ≤ mid.toNat by omega)
  · rw [heq, hmid] at hi
    cases hi
    exact hlt
  · exact Std.TransCmp.lt_trans (hsorted.lt_of_getElem? hi hmid hless) hlt

/-- A name that an empty range brackets is the name of no symbol. -/
theorem Brackets.findSymbol_eq_none {entries : List Symbol} {name : Name} {lo hi : Int} (h : Brackets entries name lo hi)
    (hempty : hi < lo) : findSymbol entries name = none := by
  rw [findSymbol_eq_none_iff]
  intro hmem
  obtain ⟨e, he, rfl⟩ := List.mem_map.1 hmem
  obtain ⟨i, hi⟩ := List.mem_iff_getElem?.1 he
  obtain ⟨hbefore, hbehind⟩ := h i e hi
  rw [compareNames_self] at hbefore hbehind
  obtain hlo | hlo := lt_or_ge (i : Int) lo
  · cases hbefore hlo
  · cases hbehind (by omega)

/-- The index that an iteration probes (R148). -/
abbrev midpoint (lo hi : Int) : Int := lo + (hi - lo) / 2

/-- An empty range ends the loop. -/
theorem searchLoop_of_lt (entries : List Symbol) (name : Name) (fuel : Nat) {lo hi : Int} (h : hi < lo) :
    searchLoop entries name fuel lo hi = ⟨none, []⟩ := by
  cases fuel with
  | zero => rfl
  | succ fuel => rw [searchLoop, if_neg (Int.not_le.2 h)]

/-- All that an iteration of the loop can do at the symbol it probes (R148): end there, or go on below or above. -/
theorem searchLoop_cases {entries : List Symbol} {name : Name} (fuel : Nat) {lo hi : Int} {e : Symbol} (h : lo ≤ hi)
    (hmid : entries[(midpoint lo hi).toNat]? = some e) :
    (compareNames name e.name = .eq ∧
      searchLoop entries name (fuel + 1) lo hi = ⟨some e.address, [⟨lo, hi, midpoint lo hi⟩]⟩) ∨
    ∃ lo' hi' r, r = searchLoop entries name fuel lo' hi' ∧
      searchLoop entries name (fuel + 1) lo hi = ⟨r.answer, ⟨lo, hi, midpoint lo hi⟩ :: r.probes⟩ ∧
      ((compareNames name e.name = .lt ∧ lo' = lo ∧ hi' = midpoint lo hi - 1) ∨
        (compareNames name e.name = .gt ∧ lo' = midpoint lo hi + 1 ∧ hi' = hi)) := by
  rw [searchLoop, if_pos h]
  simp only [hmid]
  cases hcmp : compareNames name e.name with
  | eq => exact .inl ⟨rfl, rfl⟩
  | lt => exact .inr ⟨_, _, _, rfl, rfl, .inl ⟨rfl, rfl, rfl⟩⟩
  | gt => exact .inr ⟨_, _, _, rfl, rfl, .inr ⟨rfl, rfl, rfl⟩⟩

/-- The probed index is in the range. -/
theorem midpoint_mem {lo hi : Int} (h : lo ≤ hi) : lo ≤ midpoint lo hi ∧ midpoint lo hi ≤ hi := by
  unfold midpoint
  omega

/-- On a sorted table the loop answers as the contract, if its range brackets the name and its fuel covers the range. -/
theorem searchLoop_answer {entries : List Symbol} {name : Name} (hsorted : SortedByName entries) {fuel : Nat} {lo hi : Int}
    (hlo : 0 ≤ lo) (hhi : hi < entries.length) (hfuel : hi - lo < fuel) (hbrackets : Brackets entries name lo hi) :
    (searchLoop entries name fuel lo hi).answer = findSymbol entries name := by
  have := lawfulEqCmp_compareNames
  induction fuel generalizing lo hi with
  | zero => rw [searchLoop_of_lt _ _ _ (by omega), hbrackets.findSymbol_eq_none (by omega)]
  | succ fuel ih =>
    obtain hempty | hle := lt_or_ge hi lo
    · rw [searchLoop_of_lt _ _ _ hempty, hbrackets.findSymbol_eq_none hempty]
    · obtain ⟨hlomid, hmidhi⟩ := midpoint_mem hle
      have hmid : entries[(midpoint lo hi).toNat]? = some entries[(midpoint lo hi).toNat] :=
        List.getElem?_eq_getElem (by omega)
      obtain ⟨hcmp, hloop⟩ | ⟨lo', hi', r, rfl, hloop, ⟨hcmp, rfl, rfl⟩ | ⟨hcmp, rfl, rfl⟩⟩ := searchLoop_cases fuel hle hmid
      · rw [hloop, eq_comm, findSymbol_eq_some_iff hsorted.uniqueNames, Std.LawfulEqCmp.compare_eq_iff_eq.1 hcmp]
        exact List.getElem_mem _
      · rw [hloop]
        exact ih hlo (by omega) (by omega) (hbrackets.below hsorted hmid hcmp)
      · rw [hloop]
        exact ih (by omega) hhi (by omega) (hbrackets.above hsorted hmid hcmp)

/-- Settles O52 (R148): the whole table brackets every name, and its length is fuel enough. -/
theorem binarySearchMeetsItsContract : Obligations.BinarySearchMeetsItsContract := by
  unfold Obligations.BinarySearchMeetsItsContract
  intro entries name hsorted
  exact searchLoop_answer hsorted (le_refl 0) (by omega) (by omega) (brackets_whole entries name)

/-- A range of fewer than `2 ^ k` symbols takes at most `k` iterations, since each leaves at most half of it (R148). -/
theorem searchLoop_probes_length {entries : List Symbol} {name : Name} {fuel k : Nat} {lo hi : Int}
    (h : hi - lo + 1 < (2 : Int) ^ k) : (searchLoop entries name fuel lo hi).probes.length ≤ k := by
  induction fuel generalizing k lo hi with
  | zero => exact Nat.zero_le k
  | succ fuel ih =>
    obtain hempty | hle := lt_or_ge hi lo
    · rw [searchLoop_of_lt _ _ _ hempty]
      exact Nat.zero_le k
    · cases k with
      | zero => omega
      | succ k =>
        rw [pow_succ] at h
        cases hmid : entries[(midpoint lo hi).toNat]? with
        | none =>
          rw [searchLoop, if_pos hle]
          simp [hmid]
        | some e =>
          obtain ⟨-, hloop⟩ | ⟨lo', hi', r, rfl, hloop, ⟨-, rfl, rfl⟩ | ⟨-, rfl, rfl⟩⟩ :=
            searchLoop_cases (name := name) fuel hle hmid
          · simp [hloop]
          · rw [hloop, List.length_cons]
            exact Nat.succ_le_succ (ih (by unfold midpoint; omega))
          · rw [hloop, List.length_cons]
            exact Nat.succ_le_succ (ih (by unfold midpoint; omega))

/-- Settles O53 (R148): the empty table has no range, and `n` symbols are fewer than `2 ^ (log2 n + 1)`. -/
theorem binarySearchHalvesItsRange : Obligations.BinarySearchHalvesItsRange := by
  unfold Obligations.BinarySearchHalvesItsRange
  refine fun entries name => ⟨?empty, fun _ => searchLoop_probes_length ?size⟩
  case empty =>
    rintro rfl
    rfl
  case size =>
    have hlog : entries.length < 2 ^ (Nat.log2 entries.length + 1) := Nat.lt_log2_self
    have hlog' : (entries.length : Int) < (2 : Int) ^ (Nat.log2 entries.length + 1) := by exact_mod_cast hlog
    omega

/-- `LOOKUP` in a final table that meets the invariant is the contract (R147). -/
theorem lookup_eq_findSymbol {t : SymbolTable} (hinv : t.Invariant) (hphase : t.phase = .final) (name : Name) :
    t.lookup name = .ok (findSymbol t.entries name) := by
  simp only [SymbolTable.lookup, hphase]
  rw [binarySearchMeetsItsContract _ _ (hinv.sortedByName hphase)]

/-- Settles O54 (R147): `LOOKUP` after `FINALISE` is the contract on a permutation of the inserted symbols, whose names are
unique. -/
theorem lookupIsTheMapOfTheInsertions : Obligations.LookupIsTheMapOfTheInsertions := by
  unfold Obligations.LookupIsTheMapOfTheInsertions
  intro t t' hinv hfinal name
  obtain ⟨-, rfl⟩ := SymbolTable.finalise_eq_ok_iff.1 hfinal
  have hlookup := lookup_eq_findSymbol hinv.finalised rfl name
  have hperm := sortSymbols_perm t.entries
  obtain ⟨-, huniq, -⟩ := hinv
  rw [hlookup]
  refine ⟨fun a => ?found, ?absent⟩
  case found =>
    rw [Except.ok.injEq, findSymbol_eq_some_iff (uniqueNames_sortSymbols huniq), hperm.mem_iff]
  case absent =>
    rw [Except.ok.injEq, findSymbol_eq_none_iff, (hperm.map (·.name)).mem_iff]

/-! ### Operands (R72, R152) -/

/-- Settles O56 (R72, R152): the token is looked up by the contract; the literal counts only where the answer is absent. -/
theorem symbolsShadowLiterals : Obligations.SymbolsShadowLiterals := by
  unfold Obligations.SymbolsShadowLiterals
  intro t token hinv hphase
  have hlookup := lookup_eq_findSymbol hinv hphase token
  refine ⟨fun a hmem => ?symbol, fun hnone => ?literal⟩
  case symbol =>
    rw [(findSymbol_eq_some_iff (hinv.sortedByName hphase).uniqueNames token a).2 hmem] at hlookup
    simp only [operandValue, hlookup]
  case literal =>
    rw [(findSymbol_eq_none_iff t.entries token).2 hnone] at hlookup
    refine ⟨fun v hv hle => ?_, fun v hv hgt => ?_, fun hv => ?_⟩ <;> simp only [operandValue, hlookup, hv]
    · exact if_pos hle
    · exact if_neg (Nat.not_le_of_lt hgt)

/-- An address extended to a word has the opcode bits 0. -/
theorem zextAddr_eq_wordOf (v : Addr) : zextAddr v = wordOf 0 v := by
  simp [zextAddr, wordOf]

/-- What patching makes of the word at `p`. -/
theorem patchWord_read_same (image : Memory) (p v : Addr) :
    (patchWord image p v).read p = wordOf (opcodeField (image.read p)) (operandField (image.read p) ||| v) := by
  rw [patchWord, Memory.read_write_same, zextAddr_eq_wordOf, ← wordOf_fields (image.read p), wordOf_or_wordOf,
    wordOf_fields]
  simp

/-- Patching changes no other word. -/
theorem patchWord_read_other (image : Memory) {p a : Addr} (v : Addr) (h : a ≠ p) :
    (patchWord image p v).read a = image.read a :=
  Memory.read_write_other _ _ h

/-- Settles O55 (R152): the patch puts `OR` of the operand fields into the word and leaves the opcode; over a zero field `OR` is the
value. -/
theorem patchingAssignsTheOperandField : Obligations.PatchingAssignsTheOperandField := by
  unfold Obligations.PatchingAssignsTheOperandField
  refine fun image p v => ⟨fun op hop => ?_, ?_, fun a => patchWord_read_other image v⟩
  · rw [patchWord_read_same, hop, opcodeField_wordOf, operandField_wordOf]
    simp
  · rw [patchWord_read_same, opcodeField_wordOf]

end Sys2Proof.Machine

namespace Sys2Proof.Machine

/-! ### What a scan can do at each of its operations (R60 to R67) -/

section
variable {nameMax lineNo : Nat} {sc sc' : Scan}

/-- When a word is written, and what that does (R64). -/
theorem emit_eq_ok_iff {w : Word} :
    sc.emit lineNo w = .ok sc' ↔ sc.cur ≤ 0xFFF ∧ sc' = { sc with
      image := sc.image.write (BitVec.ofNat 12 sc.cur) w, hi := some (maxAddr sc.hi (BitVec.ofNat 12 sc.cur)),
      cur := sc.cur + 1 } := by
  unfold Scan.emit
  split
  case isTrue h => rw [Except.ok.injEq, and_iff_right h, eq_comm]
  case isFalse h => exact ⟨nofun, fun ⟨hle, _⟩ => absurd hle h⟩

/-- A label that is bound is an insertion into the table (R61). -/
theorem bindLabel_eq_ok {label : Text} (h : sc.bindLabel nameMax lineNo label = .ok sc') :
    ∃ t, sc.table.insert nameMax label (BitVec.ofNat 12 sc.cur) = .ok t ∧ sc' = { sc with table := t } := by
  unfold Scan.bindLabel at h
  split_ifs at h
  split at h
  case h_1 t hinsert =>
    cases h
    exact ⟨t, hinsert, rfl⟩
  all_goals cases h

/-- An instruction line writes one word and records at most one pending operand, for that word (R64, R150). -/
theorem instruction_eq_ok {row : OpcodeRow} {args : List Text} (h : sc.instruction lineNo row args = .ok sc') :
    ∃ sc1, sc.emit lineNo (wordOf row.opcode 0) = .ok sc1 ∧
      (sc' = sc1 ∨ ∃ operand, sc' = { sc1 with pending := sc.pending ++ [⟨operand, BitVec.ofNat 12 sc.cur⟩] }) := by
  unfold Scan.instruction at h
  split at h
  case h_1 => cases h
  case h_2 sc1 hemit =>
    refine ⟨sc1, hemit, ?_⟩
    split_ifs at h
    · split at h
      case h_2 operand =>
        cases h
        exact .inr ⟨operand, rfl⟩
      all_goals cases h
    · split at h
      case h_1 =>
        cases h
        exact .inl rfl
      all_goals cases h

/-- A data line writes one word (R67). -/
theorem data_eq_ok {value : Text → Option Word} {args : List Text} (h : sc.data lineNo value args = .ok sc') :
    ∃ w, sc.emit lineNo w = .ok sc' := by
  unfold Scan.data at h
  split_ifs at h
  split at h
  case h_2 literal =>
    split at h
    case h_1 w _ => exact ⟨w, h⟩
    case h_2 => cases h
  all_goals cases h

/-- `ORG` moves the cursor forward, within the memory (R65, log 15). -/
theorem org_eq_ok {args : List Text} (h : sc.org lineNo args = .ok sc') :
    ∃ n, sc.cur ≤ n ∧ n ≤ 0xFFF ∧ sc' = { sc with cur := n } := by
  unfold Scan.org at h
  split at h
  case h_2 literal =>
    split at h
    case h_1 => cases h
    case h_2 n _ =>
      split_ifs at h with hback hrange
      cases h
      exact ⟨n, Nat.le_of_not_lt hback, Nat.le_of_not_lt hrange, rfl⟩
  all_goals cases h

/-- The scan that a line leaves, whether or not it was `END`. -/
def ScanNext.scan : ScanNext → Scan
  | .more sc => sc
  | .done sc => sc

/-- A scan that goes on is the one it was given. -/
theorem goOn_eq_ok {r : Except AsmError Scan} {next : ScanNext} (h : goOn r = .ok next) : r = .ok next.scan := by
  cases r with
  | error e => cases h
  | ok sc =>
    cases h
    rfl

/-- An instruction text is `END`, an `ORG`, a data line or an instruction line (R62 to R67). -/
theorem text_eq_ok {text : Text} {next : ScanNext} (h : sc.text lineNo text = .ok next) :
    next = .done sc ∨ (∃ args, sc.org lineNo args = .ok next.scan) ∨
    (∃ value args, sc.data lineNo value args = .ok next.scan) ∨
    ∃ row args, sc.instruction lineNo row args = .ok next.scan := by
  unfold Scan.text at h
  split at h
  case h_1 => cases h
  case h_2 m args _ =>
    split_ifs at h
    · exact .inr (.inl ⟨args, goOn_eq_ok h⟩)
    · split at h
      case h_1 =>
        cases h
        exact .inl rfl
      case h_2 => cases h
    · exact .inr (.inr (.inl ⟨_, args, goOn_eq_ok h⟩))
    · exact .inr (.inr (.inl ⟨_, args, goOn_eq_ok h⟩))
    · split at h
      case h_1 row _ => exact .inr (.inr (.inr ⟨row, args, goOn_eq_ok h⟩))
      case h_2 => cases h

/-- A source line is empty, or an instruction text, or a label and an instruction text (R59 to R61). -/
theorem line_eq_ok {raw : Text} {next : ScanNext} (h : sc.line nameMax lineNo raw = .ok next) :
    next = .more sc ∨ (∃ text, sc.text lineNo text = .ok next) ∨
    ∃ label sc1 text, sc.bindLabel nameMax lineNo label = .ok sc1 ∧ sc1.text lineNo text = .ok next := by
  unfold Scan.line at h
  dsimp only at h
  split_ifs at h
  · cases h
    exact .inl rfl
  · split at h
    case h_1 text _ => exact .inr (.inl ⟨text, h⟩)
    case h_2 label text _ =>
      split at h
      case h_1 => cases h
      case h_2 sc1 hlabel => exact .inr (.inr ⟨label, sc1, text, hlabel, h⟩)

end

/-! ### The invariant of a scan (R141, R150) -/

/-- What holds of every scan: the pending operands patch words at rising addresses, all written before the cursor, which is in
the memory or just behind it, and the symbol table is one that collects. -/
structure Scan.Invariant (sc : Scan) : Prop where
  rising : (sc.pending.map (fun p => p.patchAddress.toNat)).Pairwise (· < ·)
  below : ∀ p ∈ sc.pending, p.patchAddress.toNat < sc.cur
  fits : sc.cur ≤ 4096
  collecting : sc.table.phase = .collecting
  table : sc.table.Invariant

section
variable {nameMax lineNo : Nat} {sc sc' : Scan}

/-- The invariant holds at the start. -/
theorem start_invariant : Scan.start.Invariant :=
  ⟨.nil, nofun, by decide, rfl, by decide, .nil, nofun⟩

/-- Writing a word moves the cursor by one, from within the memory. -/
theorem Scan.Invariant.emit {w : Word} (h : sc.Invariant) (hemit : sc.emit lineNo w = .ok sc') : sc'.Invariant := by
  obtain ⟨hcur, rfl⟩ := emit_eq_ok_iff.1 hemit
  obtain ⟨hrising, hbelow, -, hcollecting, htable⟩ := h
  exact ⟨hrising, fun p hp => Nat.lt_succ_of_lt (hbelow p hp), Nat.succ_le_succ hcur, hcollecting, htable⟩

/-- A label goes into the table by `INSERT`. -/
theorem Scan.Invariant.bindLabel {label : Text} (h : sc.Invariant) (hlabel : sc.bindLabel nameMax lineNo label = .ok sc') :
    sc'.Invariant := by
  obtain ⟨t, hinsert, rfl⟩ := bindLabel_eq_ok hlabel
  obtain ⟨⟨hphase, -⟩, ht⟩ := insert_eq_ok_iff.1 hinsert
  obtain ⟨hrising, hbelow, hfits, -, htable⟩ := h
  exact ⟨hrising, hbelow, hfits, by rw [ht]; exact hphase, htable.insert hinsert⟩

/-- An instruction's pending operand is for the word at the old cursor, above all earlier ones and below the new cursor. -/
theorem Scan.Invariant.instruction {row : OpcodeRow} {args : List Text} (h : sc.Invariant)
    (hinstr : sc.instruction lineNo row args = .ok sc') : sc'.Invariant := by
  obtain ⟨sc1, hemit, rfl | ⟨operand, rfl⟩⟩ := instruction_eq_ok hinstr
  · exact h.emit hemit
  · obtain ⟨hrising, hbelow, hfits, hcollecting, htable⟩ := h.emit hemit
    obtain ⟨hcur, rfl⟩ := emit_eq_ok_iff.1 hemit
    have haddr : (BitVec.ofNat 12 sc.cur).toNat = sc.cur := by
      rw [BitVec.toNat_ofNat, Nat.mod_eq_of_lt (by omega)]
    refine ⟨?rising, ?below, hfits, hcollecting, htable⟩
    case rising =>
      rw [List.map_append, List.pairwise_append]
      refine ⟨hrising, List.pairwise_singleton _ _, fun a ha b hb => ?_⟩
      obtain ⟨p, hp, rfl⟩ := List.mem_map.1 ha
      rw [List.mem_singleton.1 hb]
      exact (h.below p hp).trans_eq haddr.symm
    case below =>
      intro p hp
      obtain hold | hnew := List.mem_append.1 hp
      · exact hbelow p hold
      · rw [List.mem_singleton.1 hnew, haddr]
        exact Nat.lt_succ_self sc.cur

/-- `ORG` moves the cursor away from the words written. -/
theorem Scan.Invariant.org {args : List Text} (h : sc.Invariant) (horg : sc.org lineNo args = .ok sc') : sc'.Invariant := by
  obtain ⟨n, hforward, hrange, rfl⟩ := org_eq_ok horg
  obtain ⟨hrising, hbelow, -, hcollecting, htable⟩ := h
  exact ⟨hrising, fun p hp => (hbelow p hp).trans_le hforward, Nat.le_succ_of_le hrange, hcollecting, htable⟩

/-- An instruction text keeps the invariant, whichever of the four kinds it is of. -/
theorem Scan.Invariant.text {text : Text} {next : ScanNext} (h : sc.Invariant) (htext : sc.text lineNo text = .ok next) :
    next.scan.Invariant := by
  obtain rfl | ⟨args, horg⟩ | ⟨value, args, hdata⟩ | ⟨row, args, hinstr⟩ := text_eq_ok htext
  · exact h
  · exact h.org horg
  · obtain ⟨w, hemit⟩ := data_eq_ok hdata
    exact h.emit hemit
  · exact h.instruction hinstr

/-- A source line keeps the invariant. -/
theorem Scan.Invariant.line {raw : Text} {next : ScanNext} (h : sc.Invariant)
    (hline : sc.line nameMax lineNo raw = .ok next) : next.scan.Invariant := by
  obtain rfl | ⟨text, htext⟩ | ⟨label, sc1, text, hlabel, htext⟩ := line_eq_ok hline
  · exact h
  · exact h.text htext
  · exact (h.bindLabel hlabel).text htext

/-- A scan keeps the invariant, line by line. -/
theorem Scan.Invariant.scanLines {lines : List Text} (h : sc.Invariant)
    (hscan : Machine.scanLines nameMax lineNo lines sc = .ok sc') : sc'.Invariant := by
  induction lines generalizing lineNo sc with
  | nil =>
    cases hscan
    exact h
  | cons raw rest ih =>
    rw [Machine.scanLines] at hscan
    split at hscan
    case h_1 => cases hscan
    case h_2 sc1 hline =>
      cases hscan
      exact h.line hline
    case h_3 sc1 hline => exact ih (h.line hline) hscan

end

/-- Settles O58 (R141, R150, R151): the scan's invariant holds at the start and every line keeps it. -/
theorem pendingOperandsPatchDistinctWords : Obligations.PendingOperandsPatchDistinctWords := by
  unfold Obligations.PendingOperandsPatchDistinctWords
  intro nameMax n lines sc hscan
  obtain ⟨hrising, hbelow, hfits, hcollecting, htable⟩ := start_invariant.scanLines hscan
  exact ⟨hrising, hbelow, hfits, hcollecting, htable⟩

/-! ### `END` and the image (R66, R70) -/

/-- A line `END` ends the scan and changes nothing (R66). -/
theorem line_end (nameMax lineNo : Nat) (sc : Scan) : sc.line nameMax lineNo (ascii "END") = .ok (.done sc) := rfl

/-- Settles O57 (R66): by induction on the lines before `END`; whatever ends the scan earlier ends both, and `END` ends what is
left. -/
theorem linesAfterEndAreIgnored : Obligations.LinesAfterEndAreIgnored := by
  unfold Obligations.LinesAfterEndAreIgnored
  intro nameMax n before after sc
  induction before generalizing n sc with
  | nil => simp only [List.nil_append, List.singleton_append, scanLines, line_end]
  | cons raw rest ih =>
    simp only [List.cons_append, scanLines]
    split
    case h_3 sc1 _ => exact ih (n + 1) sc1
    all_goals rfl

/-- The output has at most as many words as there are addresses (R70). -/
theorem imageWords_length_le (image : Memory) (hi : Option Addr) : (imageWords image hi).length ≤ 4096 := by
  cases hi with
  | none => exact Nat.zero_le _
  | some h =>
    rw [imageWords, List.length_map, List.length_range]
    exact h.isLt

/-- What assembles is the output of a patched image (R70). -/
theorem assemble_eq_ok {nameMax : Nat} {source : Text} {words : List Word} (h : assemble nameMax source = .ok words) :
    ∃ image hi, words = imageWords image hi := by
  unfold assemble Scan.finish at h
  split at h
  · cases h
  · split at h
    · cases h
    · split at h
      · cases h
      · cases h
        exact ⟨_, _, rfl⟩

/-- Settles O59 (R70, R192): the output is no longer than the memory, which is all that `LOAD` asks. -/
theorem assembledImagesCanBeLoaded : Obligations.AssembledImagesCanBeLoaded := by
  unfold Obligations.AssembledImagesCanBeLoaded
  intro nameMax source words hassemble
  obtain ⟨image, hi, rfl⟩ := assemble_eq_ok hassemble
  have hfits := imageWords_length_le image hi
  exact ⟨hfits, fun fill => ⟨_, load_eq_ok hfits⟩⟩

end Sys2Proof.Machine

namespace Sys2Proof.Machine

/-! ### Lines and tokens of plain bytes (R59 to R62) -/

/-- A byte that may stand in a name or a token: no white space, comma or `/` (R140). Line ends are white space (log 14). -/
def isPlain (b : Byte) : Bool := !isSpace b && b != commaByte && b != slashByte

/-- A plain byte or a space: what the lines of a printed program are made of. -/
def isPrinted (b : Byte) : Bool := isPlain b || b == 32

/-- A printed byte is none of the bytes that end a line or start a comment or a label. -/
theorem ne_of_isPrinted {b c : Byte} (hb : isPrinted b = true) (hc : isPrinted c = false) : b ≠ c := by
  rintro rfl
  rw [hb] at hc
  cases hc

/-- A plain byte is no white space. -/
theorem isSpace_of_isPlain {b : Byte} (h : isPlain b = true) : isSpace b = false := by
  simp only [isPlain, Bool.and_eq_true, Bool.not_eq_true'] at h
  obtain ⟨⟨hspace, -⟩, -⟩ := h
  exact hspace

/-- A line without line feeds is cut off at the next one. -/
theorem splitLines_append {line : Text} (h : ∀ b ∈ line, b ≠ 10) (rest : Text) :
    splitLines (line ++ 10 :: rest) = line :: splitLines rest := by
  induction line with
  | nil => rw [List.nil_append, splitLines, if_pos rfl]
  | cons b line ih =>
    rw [List.cons_append, splitLines, if_neg (h b List.mem_cons_self), ih fun c hc => h c (List.mem_cons_of_mem b hc)]
    rfl

/-- A line of printed bytes that begins with a plain one has nothing to remove (R59). -/
theorem prepareLine_of_printed {b : Byte} {line : Text} (hb : isPlain b = true)
    (h : ∀ c ∈ b :: line, isPrinted c = true) : prepareLine (b :: line) = b :: line := by
  have hcomment : (b :: line).takeWhile (· != slashByte) = b :: line :=
    List.takeWhile_eq_self_iff.2 fun c hc => bne_iff_ne.2 (ne_of_isPrinted (h c hc) (by decide))
  have hend : (b :: line).reverse.dropWhile (· == 13) = (b :: line).reverse :=
    List.dropWhile_eq_self_iff.2 fun _ =>
      mt beq_iff_eq.1 (ne_of_isPrinted (h _ (List.mem_reverse.1 (List.getElem_mem _))) (by decide))
  have hspace : ¬ isSpace b = true := by simp [isSpace_of_isPlain hb]
  simp only [prepareLine]
  rw [hcomment, hend, List.reverse_reverse, List.dropWhile_cons_of_neg hspace]

/-- A line of printed bytes has no label (R61). -/
theorem splitLabel_of_printed {line : Text} (h : ∀ c ∈ line, isPrinted c = true) : splitLabel line = (none, line) := by
  have hcomma : ¬ line.contains commaByte = true := by
    rw [List.contains_iff_mem]
    exact fun hmem => ne_of_isPrinted (h _ hmem) (by decide) rfl
  rw [splitLabel, if_neg hcomma]

/-- Bytes that are no white space are collected into the current token (R62). -/
theorem tokensFrom_append {t : Text} (h : ∀ b ∈ t, isSpace b = false) (cur rest : Text) :
    tokensFrom cur (t ++ rest) = tokensFrom (t.reverse ++ cur) rest := by
  induction t generalizing cur with
  | nil => rfl
  | cons b t ih =>
    have hb : ¬ isSpace b = true := by simp [h b List.mem_cons_self]
    rw [List.cons_append, tokensFrom, if_neg hb, ih fun c hc => h c (List.mem_cons_of_mem b hc), List.reverse_cons,
      List.append_assoc]
    rfl

/-- Words without white space, each but the first behind a space, are the tokens of their line. -/
theorem tokens_words {t : Text} {us : List Text} (h : ∀ u ∈ t :: us, u ≠ [] ∧ ∀ b ∈ u, isSpace b = false) :
    tokens (t ++ us.flatMap ([32] ++ ·)) = t :: us := by
  obtain ⟨hne, ht⟩ := h t List.mem_cons_self
  have hcur : ¬ (t.reverse ++ []).isEmpty = true := by simpa using hne
  induction us generalizing t with
  | nil => rw [List.flatMap_nil, tokens, tokensFrom_append ht, tokensFrom, if_neg hcur, List.append_nil, List.reverse_reverse]
  | cons u us ih =>
    have hrest : ∀ w ∈ u :: us, w ≠ [] ∧ ∀ b ∈ w, isSpace b = false := fun w hw => h w (List.mem_cons_of_mem t hw)
    obtain ⟨hneu, hu⟩ := hrest u List.mem_cons_self
    have hspace : isSpace 32 = true := by decide
    rw [List.flatMap_cons, tokens, tokensFrom_append ht, List.append_assoc, List.singleton_append, tokensFrom, if_pos hspace,
      if_neg hcur, List.append_nil, List.reverse_reverse]
    exact congrArg (t :: ·) (ih hrest hneu hu (by simpa using hneu))

/-! ### Operands as three hexadecimal digits (R68) -/

/-- A digit is plain, has its value back, and is no `x` or `X`. -/
theorem hexDigitByte_spec :
    ∀ n < 16, isPlain (hexDigitByte n) = true ∧ hexDigit (hexDigitByte n) = some n ∧
      hexDigitByte n ≠ 120 ∧ hexDigitByte n ≠ 88 := by decide

/-- The literal's value is the operand. -/
theorem hexValue_operandText (x : Addr) : hexValue (operandText x) = some x.toNat := by
  have hx := x.isLt
  obtain ⟨-, hhigh, -, -⟩ := hexDigitByte_spec (x.toNat / 256) (by omega)
  obtain ⟨-, hmid, hlower, hupper⟩ := hexDigitByte_spec (x.toNat / 16 % 16) (by omega)
  obtain ⟨-, hlow, -, -⟩ := hexDigitByte_spec (x.toNat % 16) (by omega)
  have hunmarked : ¬ (hexDigitByte (x.toNat / 256) = 48 ∧
      (hexDigitByte (x.toNat / 16 % 16) = 120 ∨ hexDigitByte (x.toNat / 16 % 16) = 88)) :=
    fun ⟨_, h⟩ => h.elim hlower hupper
  rw [operandText, hexValue, if_neg hunmarked, numeral, if_neg (by simp)]
  simp only [digitsValue, hhigh, hmid, hlow, Option.some.injEq]
  omega

/-- The literal is plain. -/
theorem operandText_plain (x : Addr) : ∀ b ∈ operandText x, isPlain b = true := by
  have hx := x.isLt
  obtain ⟨hhigh, -⟩ := hexDigitByte_spec (x.toNat / 256) (by omega)
  obtain ⟨hmid, -⟩ := hexDigitByte_spec (x.toNat / 16 % 16) (by omega)
  obtain ⟨hlow, -⟩ := hexDigitByte_spec (x.toNat % 16) (by omega)
  simp [operandText, hhigh, hmid, hlow]

end Sys2Proof.Machine

namespace Sys2Proof.Machine

/-! ### The source line of an instruction (R63, R71) -/

/-- The instruction is of format N: its line has no operand (R53, R55). -/
abbrev IsFormatN (i : Instr) : Prop := i.opcode ∈ [0x5#4, 0x6, 0x7, 0xA]

/-- An instruction of the set has not the undefined opcode (R56). -/
theorem opcode_ne_undefined {i : Instr} (h : i.isInstruction = true) : i.opcode ≠ 0xF := by
  rw [← instrOf_opcode_field i, isInstruction_instrOf] at h
  exact of_decide_eq_true h

/-- An instruction of format N has a zero operand field (R55). -/
theorem field_of_isFormatN {i : Instr} (h : IsFormatN i) : i.field = 0 := by
  rw [← instrOf_opcode_field i, field_instrOf, if_pos h]

/-- Every opcode but 15 has a row of the assembler's table (R53). -/
theorem exists_row_of_opcode_ne :
    ∀ op : Opcode, op ≠ 0xF → ∃ row ∈ instructionRows, rowOfOpcode op = some row ∧ row.opcode = op := by decide

/-- The rows without an operand are those of format N (R53). -/
theorem takesOperand_iff_opcode :
    ∀ row ∈ instructionRows, row.takesOperand = true ↔ row.opcode ∉ [0x5#4, 0x6, 0x7, 0xA] := by decide

/-- An instruction's row takes an operand unless the instruction is of format N. -/
theorem takesOperand_iff {row : OpcodeRow} {i : Instr} (hrow : row ∈ instructionRows) (hop : row.opcode = i.opcode) :
    row.takesOperand = true ↔ ¬ IsFormatN i := by
  rw [takesOperand_iff_opcode row hrow, hop]

/-- Mnemonics are made of plain bytes. -/
theorem mnemonic_plain : ∀ row ∈ instructionRows, ∀ b ∈ ascii row.mnemonic, isPlain b = true := by decide

/-- Each mnemonic finds its own row, and no directive is spelled like one (R63, R71). -/
theorem findRow_mnemonic : ∀ row ∈ instructionRows, ascii row.mnemonic ≠ [] ∧ ascii row.mnemonic ≠ ascii "ORG" ∧
    ascii row.mnemonic ≠ ascii "END" ∧ ascii row.mnemonic ≠ ascii "Hex" ∧ ascii row.mnemonic ≠ ascii "Dec" ∧
    findRow (ascii row.mnemonic) = some row := by decide

/-- The tokens behind the mnemonic on an instruction's line. -/
def operandTokens (i : Instr) : List Text := if IsFormatN i then [] else [operandText i.field]

/-- Operand tokens are plain and not empty. -/
theorem operandTokens_plain (i : Instr) : ∀ t ∈ operandTokens i, t ≠ [] ∧ ∀ b ∈ t, isPlain b = true := by
  intro t ht
  rw [operandTokens] at ht
  split at ht
  · cases ht
  · rw [List.mem_singleton.1 ht]
    exact ⟨by simp [operandText], operandText_plain i.field⟩

/-- An instruction's line is its row's mnemonic, and the operand tokens behind a space (R71). -/
theorem sourceLine_eq {i : Instr} (h : i.isInstruction = true) : ∃ row ∈ instructionRows, row.opcode = i.opcode ∧
    sourceLine i = ascii row.mnemonic ++ (operandTokens i).flatMap ([32] ++ ·) := by
  obtain ⟨row, hrow, hfind, hop⟩ := exists_row_of_opcode_ne i.opcode (opcode_ne_undefined h)
  have htakes := takesOperand_iff hrow hop
  refine ⟨row, hrow, hop, ?_⟩
  simp only [sourceLine, hfind, operandTokens]
  by_cases hformat : IsFormatN i
  case pos => rw [if_neg fun h => htakes.1 h hformat, if_pos hformat, List.flatMap_nil, List.append_nil]
  case neg => rw [if_pos (htakes.2 hformat), if_neg hformat, List.flatMap_singleton, List.append_assoc]

/-- The words of an instruction's line are plain and not empty. -/
theorem words_plain {row : OpcodeRow} (hrow : row ∈ instructionRows) (i : Instr) :
    ∀ t ∈ ascii row.mnemonic :: operandTokens i, t ≠ [] ∧ ∀ b ∈ t, isPlain b = true := by
  obtain ⟨hne, -⟩ := findRow_mnemonic row hrow
  exact List.forall_mem_cons.2 ⟨⟨hne, mnemonic_plain row hrow⟩, operandTokens_plain i⟩

/-- The scan reads the mnemonic and the operand tokens of an instruction's line (R62). -/
theorem tokens_sourceLine {i : Instr} (h : i.isInstruction = true) :
    ∃ row ∈ instructionRows, row.opcode = i.opcode ∧ tokens (sourceLine i) = ascii row.mnemonic :: operandTokens i := by
  obtain ⟨row, hrow, hop, hline⟩ := sourceLine_eq h
  refine ⟨row, hrow, hop, ?_⟩
  rw [hline]
  refine tokens_words fun t ht => ?_
  obtain ⟨hne, hplain⟩ := words_plain hrow i t ht
  exact ⟨hne, fun b hb => isSpace_of_isPlain (hplain b hb)⟩

/-- An instruction's line is made of printed bytes. -/
theorem sourceLine_printed {i : Instr} (h : i.isInstruction = true) : ∀ b ∈ sourceLine i, isPrinted b = true := by
  obtain ⟨row, hrow, -, hline⟩ := sourceLine_eq h
  obtain ⟨⟨-, hmnemonic⟩, hoperand⟩ := List.forall_mem_cons.1 (words_plain hrow i)
  intro b hb
  rw [hline, List.mem_append, List.mem_flatMap] at hb
  rw [isPrinted, Bool.or_eq_true]
  obtain hb | ⟨t, ht, hb⟩ := hb
  · exact .inl (hmnemonic b hb)
  · obtain hb | hb := List.mem_append.1 hb
    · exact .inr (beq_iff_eq.2 (List.mem_singleton.1 hb))
    · obtain ⟨-, hplain⟩ := hoperand t ht
      exact .inl (hplain b hb)

/-- An instruction's line begins with a plain byte. -/
theorem sourceLine_begins {i : Instr} (h : i.isInstruction = true) :
    ∃ b line, sourceLine i = b :: line ∧ isPlain b = true := by
  obtain ⟨row, hrow, -, hline⟩ := sourceLine_eq h
  obtain ⟨⟨hne, hplain⟩, -⟩ := List.forall_mem_cons.1 (words_plain hrow i)
  obtain ⟨b, rest, hmnemonic⟩ := List.exists_cons_of_ne_nil hne
  rw [hmnemonic] at hline hplain
  exact ⟨b, _, hline, hplain b List.mem_cons_self⟩

/-- The lines of a printed program are its instructions', and an empty one behind the last line end. -/
theorem splitLines_sourceText {program : List Instr} (h : ∀ i ∈ program, i.isInstruction = true) :
    splitLines (sourceText program) = program.map sourceLine ++ [[]] := by
  induction program with
  | nil => rfl
  | cons i rest ih =>
    have hprinted := sourceLine_printed (h i List.mem_cons_self)
    have htext : sourceText (i :: rest) = sourceLine i ++ 10 :: sourceText rest := by simp [sourceText]
    rw [htext, splitLines_append fun b hb => ne_of_isPrinted (hprinted b hb) (by decide),
      ih fun j hj => h j (List.mem_cons_of_mem i hj)]
    rfl

/-! ### The scan of a printed program (R64, R150) -/

/-- The pending operand that an instruction at an address leaves, if its line has one (R150). -/
def pendingAt (n : Nat) (i : Instr) : List PendingOperand :=
  (operandTokens i).map fun token => ⟨token, BitVec.ofNat 12 n⟩

/-- What the scan makes of an instruction's line: the word with a zero operand field at the cursor, and the pending operand. -/
def Scan.store (sc : Scan) (i : Instr) : Scan where
  image := sc.image.write (BitVec.ofNat 12 sc.cur) (wordOf i.opcode 0)
  cur := sc.cur + 1
  hi := some (maxAddr sc.hi (BitVec.ofNat 12 sc.cur))
  table := sc.table
  pending := sc.pending ++ pendingAt sc.cur i

/-- An instruction with its own operand tokens is stored, while the cursor is in the memory. -/
theorem instruction_eq_store {row : OpcodeRow} {i : Instr} {sc : Scan} (lineNo : Nat) (hrow : row ∈ instructionRows)
    (hop : row.opcode = i.opcode) (hcur : sc.cur ≤ 0xFFF) :
    sc.instruction lineNo row (operandTokens i) = .ok (sc.store i) := by
  have htakes := takesOperand_iff hrow hop
  have hemit := (emit_eq_ok_iff (lineNo := lineNo) (w := wordOf row.opcode 0)).2 ⟨hcur, rfl⟩
  simp only [Scan.instruction, hemit]
  rw [hop, operandTokens, Scan.store, pendingAt, operandTokens]
  by_cases hformat : IsFormatN i
  case pos =>
    rw [if_neg fun h => htakes.1 h hformat, if_pos hformat, List.map_nil, List.append_nil]
  case neg =>
    rw [if_pos (htakes.2 hformat), if_neg hformat, List.map_singleton]

/-- The line of an instruction is stored, while the cursor is in the memory. -/
theorem line_sourceLine (nameMax lineNo : Nat) {i : Instr} {sc : Scan} (h : i.isInstruction = true) (hcur : sc.cur ≤ 0xFFF) :
    sc.line nameMax lineNo (sourceLine i) = .ok (.more (sc.store i)) := by
  obtain ⟨row, hrow, hop, htokens⟩ := tokens_sourceLine h
  obtain ⟨b, line, hline, hb⟩ := sourceLine_begins h
  have hprinted := sourceLine_printed h
  obtain ⟨-, horg, hend, hhex, hdec, hfind⟩ := findRow_mnemonic row hrow
  have hprepared : prepareLine (sourceLine i) = sourceLine i := by
    rw [hline] at hprinted ⊢
    exact prepareLine_of_printed hb hprinted
  have hne : ¬ (sourceLine i).isEmpty = true := by simp [hline]
  have htext : sc.text lineNo (sourceLine i) = .ok (.more (sc.store i)) := by
    simp only [Scan.text, htokens]
    rw [if_neg horg, if_neg hend, if_neg hhex, if_neg hdec, hfind]
    simp only [instruction_eq_store lineNo hrow hop hcur, goOn]
  simp only [Scan.line, hprepared]
  rw [if_neg hne, splitLabel_of_printed hprinted]
  exact htext

/-- The scan of a printed program stores its instructions one after the other, if they fit. -/
theorem scanLines_sourceLines (nameMax : Nat) {program : List Instr} {lineNo : Nat} {sc : Scan}
    (h : ∀ i ∈ program, i.isInstruction = true) (hfits : sc.cur + program.length ≤ 4096) :
    scanLines nameMax lineNo (program.map sourceLine ++ [[]]) sc = .ok (program.foldl Scan.store sc) := by
  induction program generalizing lineNo sc with
  | nil => rfl
  | cons i rest ih =>
    rw [List.length_cons] at hfits
    rw [List.map_cons, List.cons_append, scanLines, line_sourceLine nameMax lineNo (h i List.mem_cons_self) (by omega)]
    exact ih (fun j hj => h j (List.mem_cons_of_mem i hj)) (by simp only [Scan.store]; omega)

/-- The address of the last of `k` words from 0 upward. -/
def lastAddr (k : Nat) : Option Addr := if k = 0 then none else some (BitVec.ofNat 12 (k - 1))

/-- What a scan holds after it has stored a program from address 0 on. -/
structure Stored (program : List Instr) (sc : Scan) : Prop where
  cur : sc.cur = program.length
  words : (List.range program.length).map sc.image.readAt = program.map (fun i => wordOf i.opcode 0)
  hi : sc.hi = lastAddr program.length
  table : sc.table = SymbolTable.empty
  pending : sc.pending = program.zipIdx.flatMap (fun c => pendingAt c.2 c.1)

/-- The start has stored nothing. -/
theorem stored_start : Stored [] Scan.start := ⟨rfl, rfl, rfl, rfl, rfl⟩

/-- The highest address after the next word is the next word's. -/
theorem maxAddr_lastAddr {k : Nat} (h : k < 4096) : some (maxAddr (lastAddr k) (BitVec.ofNat 12 k)) = lastAddr (k + 1) := by
  cases k with
  | zero => rfl
  | succ k =>
    have hlt : (BitVec.ofNat 12 k).toNat < (BitVec.ofNat 12 (k + 1)).toNat := by
      rw [BitVec.toNat_ofNat, BitVec.toNat_ofNat]
      omega
    simp only [lastAddr, Nat.succ_ne_zero, if_false, Nat.add_sub_cancel, maxAddr, if_pos hlt]

/-- What memory reads by number after a write to an address given by number. -/
theorem Memory.readAt_write_ofNat (m : Memory) {n : Nat} (h : n < 4096) (v : Word) (a : Nat) :
    Memory.readAt (m.write (BitVec.ofNat 12 n) v) a = if a = n then v else Memory.readAt m a := by
  rw [Memory.write, Memory.readAt_writeAt, BitVec.toNat_ofNat, Nat.mod_eq_of_lt h]

/-- Storing one more instruction stores the longer program. -/
theorem Stored.store {program : List Instr} {sc : Scan} (h : Stored program sc) (i : Instr) (hfits : program.length < 4096) :
    Stored (program ++ [i]) (sc.store i) := by
  obtain ⟨hcur, hwords, hhi, htable, hpending⟩ := h
  have hcur' : sc.cur < 4096 := hcur.trans_lt hfits
  refine ⟨?cur, ?words, ?hi, htable, ?pending⟩
  case cur => rw [Scan.store, hcur, List.length_append]; rfl
  case words =>
    have hold : (List.range program.length).map (sc.store i).image.readAt =
        (List.range program.length).map sc.image.readAt := by
      refine List.map_congr_left fun n hn => ?_
      rw [Scan.store, Memory.readAt_write_ofNat _ hcur', if_neg (hcur ▸ (List.mem_range.1 hn).ne)]
    have hnew : (sc.store i).image.readAt program.length = wordOf i.opcode 0 := by
      rw [Scan.store, Memory.readAt_write_ofNat _ hcur', if_pos hcur.symm]
    rw [List.length_append, List.length_singleton, List.range_succ, List.map_append, List.map_append, hold, hwords,
      List.map_singleton, hnew, List.map_singleton]
  case hi =>
    rw [Scan.store, hhi, hcur, maxAddr_lastAddr hfits, List.length_append, List.length_singleton]
  case pending =>
    rw [Scan.store, hpending, hcur, List.zipIdx_append, List.flatMap_append]
    simp

/-- The scan has stored the whole program. -/
theorem stored_foldl {program : List Instr} (h : program.length ≤ 4096) :
    Stored program (program.foldl Scan.store Scan.start) := by
  induction program using List.reverseRecOn with
  | nil => exact stored_start
  | append_singleton rest i ih =>
    rw [List.length_append, List.length_singleton] at h
    rw [List.foldl_append]
    exact (ih (by omega)).store i (by omega)

/-! ### The resolution of a printed program (R151, R152) -/

/-- In an assembly without labels a printed operand has its own value (R72). -/
theorem operandValue_operandText (x : Addr) : operandValue ⟨[], .final⟩ (operandText x) = some x := by
  have hinv : SymbolTable.Invariant ⟨[], .final⟩ := ⟨by decide, .nil, fun _ => .nil⟩
  obtain ⟨-, hliteral⟩ := symbolsShadowLiterals ⟨[], .final⟩ (operandText x) hinv rfl
  obtain ⟨hvalue, -, -⟩ := hliteral List.not_mem_nil
  rw [hvalue x.toNat (hexValue_operandText x) (Nat.le_of_lt_succ x.isLt), BitVec.ofNat_toNat, BitVec.setWidth_eq]

/-- Resolving what an instruction left makes its word, and no other, the encoded one (R152). -/
theorem resolvePending_pendingAt {i : Instr} {image : Memory} {n : Nat} (hn : n < 4096)
    (hword : image.readAt n = wordOf i.opcode 0) (rest : List PendingOperand) :
    ∃ image', resolvePending ⟨[], .final⟩ (pendingAt n i ++ rest) image = resolvePending ⟨[], .final⟩ rest image' ∧
      image'.readAt n = encode i ∧ ∀ m, m ≠ n → image'.readAt m = image.readAt m := by
  by_cases hformat : IsFormatN i
  case pos =>
    refine ⟨image, ?_, ?_, fun _ _ => rfl⟩
    · rw [pendingAt, operandTokens, if_pos hformat]
      rfl
    · rw [hword, encode, field_of_isFormatN hformat]
  case neg =>
    refine ⟨patchWord image (BitVec.ofNat 12 n) i.field, ?_, ?_, fun m hm => ?_⟩
    · rw [pendingAt, operandTokens, if_neg hformat, List.map_singleton, List.singleton_append, resolvePending,
        operandValue_operandText]
    · have haddr : (BitVec.ofNat 12 n).toNat = n := by rw [BitVec.toNat_ofNat, Nat.mod_eq_of_lt hn]
      obtain ⟨hpatch, -⟩ := patchingAssignsTheOperandField image (BitVec.ofNat 12 n) i.field
      have hpatched := hpatch i.opcode (by rw [Memory.read, haddr, hword])
      rwa [Memory.read, haddr] at hpatched
    · rw [patchWord, Memory.readAt_write_ofNat _ hn, if_neg hm]

/-- The resolution pass over a stored program makes its words the encoded ones, from an address on, and changes none below. -/
theorem resolvePending_program {program : List Instr} {image : Memory} {n : Nat} (hfits : n + program.length ≤ 4096)
    (hwords : (List.range' n program.length).map image.readAt = program.map (fun i => wordOf i.opcode 0)) :
    ∃ image', resolvePending ⟨[], .final⟩ ((program.zipIdx n).flatMap (fun c => pendingAt c.2 c.1)) image = .ok image' ∧
      (List.range' n program.length).map image'.readAt = program.map encode ∧
      ∀ m, m < n → image'.readAt m = image.readAt m := by
  induction program generalizing n image with
  | nil => exact ⟨image, rfl, rfl, fun _ _ => rfl⟩
  | cons i rest ih =>
    rw [List.length_cons] at hfits
    rw [List.length_cons, List.range'_succ, List.map_cons, List.map_cons, List.cons.injEq] at hwords
    obtain ⟨hword, hrest⟩ := hwords
    rw [List.zipIdx_cons, List.flatMap_cons]
    obtain ⟨image1, hresolve1, hword1, hother1⟩ := resolvePending_pendingAt (by omega) hword
      ((rest.zipIdx (n + 1)).flatMap (fun c => pendingAt c.2 c.1))
    have hrest1 : (List.range' (n + 1) rest.length).map image1.readAt = rest.map (fun i => wordOf i.opcode 0) := by
      rw [← hrest]
      refine List.map_congr_left fun m hm => hother1 m ?_
      have := (List.mem_range'_1.1 hm).1
      omega
    obtain ⟨image', hresolve, hwords', hbelow⟩ := ih (by omega) hrest1
    refine ⟨image', hresolve1.trans hresolve, ?_, fun m hm => ?_⟩
    · rw [List.length_cons, List.range'_succ, List.map_cons, List.map_cons, hwords', hbelow n (Nat.lt_succ_self n), hword1]
    · rw [hbelow m (by omega), hother1 m (by omega)]

/-- The output is the words up to the last address (R70). -/
theorem imageWords_lastAddr (image : Memory) {k : Nat} (h : k ≤ 4096) :
    imageWords image (lastAddr k) = (List.range k).map image.readAt := by
  cases k with
  | zero => rfl
  | succ k =>
    have haddr : (BitVec.ofNat 12 k).toNat = k := by rw [BitVec.toNat_ofNat, Nat.mod_eq_of_lt h]
    simp only [lastAddr, Nat.succ_ne_zero, if_false, Nat.add_sub_cancel, imageWords, haddr]

/-- A stored program is assembled to its encoded words. -/
theorem Stored.finish {program : List Instr} {sc : Scan} (h : Stored program sc) (hfits : program.length ≤ 4096) :
    sc.finish = .ok (program.map encode) := by
  obtain ⟨-, hwords, hhi, htable, hpending⟩ := h
  rw [List.range_eq_range'] at hwords
  obtain ⟨image', hresolve, hwords', -⟩ := resolvePending_program (by omega) hwords
  have hfinal : SymbolTable.empty.finalise = .ok ⟨[], .final⟩ := rfl
  simp only [Scan.finish, htable, hfinal, hpending, hresolve]
  rw [hhi, imageWords_lastAddr image' hfits, List.range_eq_range', hwords']

/-- Settles O60 (S1): the lines of the printed program are scanned to its instructions stored from address 0 on, whose operands the
resolution pass fills in; the words decode back by `decodeEncodeGivesBackTheInstruction`. -/
theorem assemblingThenDecodingRecoversTheProgram : Obligations.AssemblingThenDecodingRecoversTheProgram := by
  unfold Obligations.AssemblingThenDecodingRecoversTheProgram
  intro nameMax program hfits hinstr
  refine ⟨?assembled, ?decoded⟩
  case assembled =>
    have hscan := scanLines_sourceLines nameMax (lineNo := 1) hinstr (sc := Scan.start) (by simpa [Scan.start] using hfits)
    simp only [assemble, splitLines_sourceText hinstr, hscan]
    exact (stored_foldl hfits).finish hfits
  case decoded =>
    rw [List.map_map]
    exact List.map_id'' (fun i => decodeEncodeGivesBackTheInstruction i) program

end Sys2Proof.Machine
